-- ==== Sys2Proof/Word.lean ====
section
/-! DEFINITION. The word type: a register, a memory cell, an opcode, an operand, `pc` and `sp` are all
8 bits wide (spec/00_scope.md section 4, XLEN and ADDR_WIDTH). -/

namespace Sys2Proof

/-- A `u8`: an unsigned value 0..255, bit 0 least significant (R9, section 6 of spec/00_scope.md). -/
abbrev Byte := BitVec 8

end Sys2Proof
end

