-- ==== Sys2Proof/Config.lean ====
section
/-! DEFINITION. What is fixed for the machine and not state (R2, R5): the construction parameters at their
defaults (D15, log 15), the reset values, and the type of the one open parameter `OPCODES` (D1, log 1). -/

namespace Sys2Proof

/-- The 13 mnemonics, in the order of the spec's table (R53). -/
inductive Mnemonic where
  | hlt | ldi | prn | mul | add | cmp | push | pop | call | ret | jmp | jeq | jne
deriving DecidableEq, Repr

/-- `OPCODES`: the opcode byte of each mnemonic (spec/00_scope.md section 4). The decoder, the encoder and the
step take one as an argument; the spec constrains it to be injective. Its default value is
`Sys2Proof.opcodes` of Decode.lean. -/
abbrev OpcodeMap := Mnemonic → Byte

/-- The constraint on `OPCODES`: "constrained to be injective" (R53). -/
abbrev OpcodeMap.Injective (opc : OpcodeMap) : Prop := Function.Injective opc

/-- `MEM_SIZE`, the number of memory cells (R2, R21). -/
abbrev Config.memSize : Nat := 256

/-- `INITIAL_SP`, the reset value of SP (R2, R27; 90_conflicts C2). -/
def Config.initialSp : Byte := 0xF4

/-- `REG_RESET`: DESIGN CHOICE of the spec (D6), unsafe, log 2. -/
def Config.regReset : Byte := 0

/-- What a memory cell holds after reset: "zero-initialized" (R27). -/
def Config.memReset : Byte := 0

end Sys2Proof
end

