-- ==== Sys2Proof/Machine/State.lean ====
section
/-! DEFINITION. The whole state of the machine (table at the head of spec/10_state.md), the reasons a host step
can stop, and the state after reset (R27). -/

namespace Sys2Proof.Machine

/-- The index of a general register R0 to R7 (R10); `NUM_GPR` is 8, fixed (R2, D15). -/
abbrev RegIdx := Fin 8

/-- The three condition flags, kept as three separate bits (R18, R19). -/
structure Flags where
  /-- Equal. -/
  e : Bool
  /-- Greater. -/
  g : Bool
  /-- Less. -/
  l : Bool
deriving DecidableEq, Repr

/-- The two fatal errors a running program can raise (R110). -/
inductive Cause where
  /-- The opcode byte is not one of the 13 (R111). -/
  | illegalInstruction
  /-- A computed memory address or register index is out of range (R112). -/
  | outOfBounds
deriving DecidableEq, Repr

/-- The run state `RUN` (R20). -/
inductive RunState where
  /-- The only run state that has a step. -/
  | running
  /-- "terminal state, successful completion". -/
  | halted
  /-- After a fatal error, with its record: the cause, the address of the failing instruction's opcode byte,
  and that byte (R116). -/
  | faulted (cause : Cause) (pc opcode : Byte)
deriving DecidableEq, Repr

/-- Memory as (address, byte) pairs in one canonical form: addresses strictly rising and below 256, no entry
equal to what an unlisted address reads as (`Memory.wf` of Ops.lean; log 20). -/
abbrev Memory := List Host.Cell

/-- Everything the spec gives the machine. -/
structure State where
  /-- `x[0]`..`x[7]` (R10). -/
  regs : Vector Byte 8
  /-- The stack pointer, not one of R0-R7 (R14). -/
  sp : Byte
  /-- The program counter (R16). -/
  pc : Byte
  /-- The flags (R18). -/
  fl : Flags
  /-- `MEM` (R21). -/
  mem : Memory
  /-- `RUN` (R20). -/
  run : RunState
  /-- `OUT`, oldest value first (R22). -/
  out : List Byte
deriving DecidableEq, Repr

/-- Why a step of the machine stops without a next state. No instruction raises these: a fatal error of an
instruction is a next state whose `run` is `faulted` (log 11). -/
inductive Fault where
  /-- Raised by `step` alone, in a state whose `run` is `halted`: "In `Halted` and `Faulted` there is no step"
  (R78). Safe: nothing goes on. -/
  | noStepWhenHalted
  /-- Raised by `step` alone, in a state whose `run` is `faulted` (R78). Safe: nothing goes on. -/
  | noStepWhenFaulted
deriving DecidableEq, Repr

/-- Why a step is refused. -/
inductive Refusal where
  /-- Raised by `exec` for an instruction that has no meaning yet; no arm does. Safe: nothing goes on. -/
  | notModelled (mnemonic : String)
deriving DecidableEq, Repr

/-- The machine right after reset, that is after construction (R27, R130). `regs` and `fl` hold values the
source does not give: DESIGN CHOICE, unsafe, log 2 and log 3. -/
def State.reset : State where
  regs := Vector.replicate 8 Config.regReset
  sp := Config.initialSp
  pc := 0
  fl := { e := false, g := false, l := false }
  mem := []
  run := .running
  out := []

end Sys2Proof.Machine
end

