-- ==== Sys2Proof/Machine/Ops.lean ====
section
/-! DEFINITION. The named operations over memory, registers and the other state (the primitives of
spec/00_scope.md section 7), and `raise`, the one way a fatal error is taken. -/

namespace Sys2Proof.Machine

/-- The condition of R112 under which a computed address or index is out of range. Diagnostic only: the fault
record does not hold it (R116, D14, log 14). -/
inductive Oob where
  /-- OB1: an operand address beyond memory. -/
  | operandAddress
  /-- OB2: a register index out of range. -/
  | registerIndex
  /-- OB3: a stack slot below memory. -/
  | stackSlot
  /-- OB4: a new stack pointer beyond memory. -/
  | stackPointer
  /-- OB5: a sequential advance beyond memory. -/
  | advance
  /-- OB6: a return address beyond memory. -/
  | returnAddress
deriving DecidableEq, Repr

/-- The compute phase of an instruction rule: it yields a value or raises `OutOfBounds` (spec/00_scope.md
section 6). -/
abbrev Compute (α : Type) := Except Oob α

/-! ### Memory -/

/-- What an address that nothing has written reads as: the reset contents (R27, R37). -/
def unlisted : Byte := Config.memReset

/-- The byte at an address. -/
def Memory.get : Memory → Nat → Byte
  | [], _ => unlisted
  | (k, v) :: m, a => if k = a then v else Memory.get m a

/-- Writing one byte, keeping the canonical form: writing what an unlisted address reads as removes the
entry. -/
def Memory.set : Memory → Nat → Byte → Memory
  | [], a, v => if v = unlisted then [] else [(a, v)]
  | (k, w) :: m, a, v =>
    if a < k then (if v = unlisted then (k, w) :: m else (a, v) :: (k, w) :: m)
    else if a = k then (if v = unlisted then m else (a, v) :: m)
    else (k, w) :: Memory.set m a v

/-- Entries from address `lo` on are in canonical form. -/
def Memory.wfFrom : Nat → Memory → Bool
  | _, [] => true
  | lo, (k, v) :: m =>
    decide (lo ≤ k) && decide (k < Config.memSize) && decide (v ≠ unlisted) && Memory.wfFrom (k + 1) m

/-- The canonical form: addresses strictly rising, all below 256 (R45), no entry equal to what an unlisted
address reads as. -/
def Memory.wf (m : Memory) : Bool := Memory.wfFrom 0 m

/-- Writing a list of bytes at ascending addresses from `a` on; a byte that would lie beyond memory is not
written. -/
def Memory.store (m : Memory) (a : Nat) : List Byte → Memory
  | [] => m
  | b :: bs => if a < Config.memSize then Memory.store (Memory.set m a b) (a + 1) bs else m

/-! ### Reads -/

/-- `x[i]` as a read (R10). -/
def State.reg (s : State) (i : RegIdx) : Byte := s.regs[i]

/-- `MEM[a]` as a read of one byte, with no bounds check. -/
def State.byteAt (s : State) (a : Nat) : Byte := Memory.get s.mem a

/-- The byte at `pc`: the opcode of the instruction being executed (R16). -/
def State.opcodeByte (s : State) : Byte := s.byteAt s.pc.toNat

/-! ### Writes (commit phase) -/

/-- `x[i] <- v`. -/
def State.setReg (s : State) (i : RegIdx) (v : Byte) : State := { s with regs := s.regs.set i v }

/-- `sp <- v`. -/
def State.setSp (s : State) (v : Byte) : State := { s with sp := v }

/-- `pc <- target`. -/
def State.setPc (s : State) (target : Byte) : State := { s with pc := target }

/-- `fl <- (E=e, G=g, L=l)`: all three at once. -/
def State.setFlags (s : State) (f : Flags) : State := { s with fl := f }

/-- `MemWrite(addr, 1, v)`: the address is a byte, so it is in range (R32). -/
def State.memWrite (s : State) (a v : Byte) : State := { s with mem := Memory.set s.mem a.toNat v }

/-- `Emit(v)`: append to `OUT` (R82). -/
def State.emit (s : State) (v : Byte) : State := { s with out := s.out ++ [v] }

/-- `RUN <- r`. -/
def State.setRun (s : State) (r : RunState) : State := { s with run := r }

/-! ### Checks (compute phase) -/

/-- `Addr(a)`: an integer outside 0..255 raises `OutOfBounds`; an address is never reduced to make it fit
(R17, R31, D4, log 4). The first argument is the diagnostic sub-cause. -/
def addr (d : Oob) (a : Int) : Compute Byte :=
  if 0 ≤ a ∧ a < Config.memSize then .ok (BitVec.ofInt 8 a) else .error d

/-- `MemRead(addr, 1)`: bounds check, then the byte; no side effect (R31, R32). -/
def memRead (s : State) (d : Oob) (a : Int) : Compute Byte := do
  let b ← addr d a
  return s.byteAt b.toNat

/-- `Reg(b)`: a byte above 7 raises `OutOfBounds`; no bit of it is ignored (R11, D3, log 5). -/
def regIndex (b : Byte) : Compute RegIdx :=
  if h : b.toNat < 8 then .ok ⟨b.toNat, h⟩ else .error .registerIndex

/-! ### Raising -/

/-- Taking a fatal error, the machine's only exception: `RUN <- Faulted(cause, pc, opcode)` and no register,
flag, memory, `pc`, `sp` or `OUT` change (R116, R117, R119). There is no return from it (R120). -/
def State.raise (s : State) (c : Cause) : State := s.setRun (.faulted c s.pc s.opcodeByte)

/-- The end of an instruction rule: the committed state if the compute phase raised nothing, else the old
state with `OutOfBounds` raised; every sub-cause gives the same record (R73, R117, R118). -/
def conclude (s : State) : Compute State → Host.Outcome State Fault Refusal
  | .ok t => .next t
  | .error _ => .next (s.raise .outOfBounds)

end Sys2Proof.Machine
end

