-- ==== Sys2Proof/Machine/Flags.lean ====
section
/-! DEFINITION. The flag computation of CMP (R88), the conditions of JEQ and JNE (R103, R104, R107), and the
packed display of the flags (R19). -/

namespace Sys2Proof.Machine

/-- The flags after comparing `a` with `b` as unsigned bytes (R88, D9, log 8). -/
def compareFlags (a b : Byte) : Flags where
  e := decide (a.toNat = b.toNat)
  g := decide (a.toNat > b.toNat)
  l := decide (a.toNat < b.toNat)

/-- The condition of JEQ: `fl.E == 1` (R103). -/
def Flags.equal (f : Flags) : Bool := f.e

/-- The condition of JNE: `fl.E == 0`, not `fl.G` or `fl.L` (R104). -/
def Flags.notEqual (f : Flags) : Bool := !f.e

/-- How many of the three flags are set. -/
def Flags.count (f : Flags) : Nat := f.e.toNat + f.g.toNat + f.l.toNat

/-- The display byte `0b00000LGE` (R19). PRESUMED, safe, log 19: no instruction reads or writes it. -/
def Flags.display (f : Flags) : Byte :=
  0b00000#5 ++ BitVec.ofBool f.l ++ BitVec.ofBool f.g ++ BitVec.ofBool f.e

end Sys2Proof.Machine
end

