-- ==== Sys2Proof/Machine/Operands.lean ====
section
/-! DEFINITION. The operand forms: an operand byte, a register operand (R52), the sequential advance (R76) and
the two stack forms (R95). -/

namespace Sys2Proof.Machine

/-- `MemRead(pc + k, 1)` as an instruction rule reads its operand byte: the check that the byte lies inside
memory (OB1 of R112), and the byte `b` that the fetch unit read there into the instruction (log 17). -/
def operandByte (s : State) (k : Nat) (b : Byte) : Compute Byte := do
  let _ ← addr .operandAddress (s.pc.toNat + k)
  return b

/-- `Reg(MemRead(pc + k, 1))`. -/
def regOperand (s : State) (k : Nat) (b : Byte) : Compute RegIdx := do
  let b ← operandByte s k b
  regIndex b

/-- `Addr(pc + len)`: the sequential advance; there is no wrap-around (R17, R76). -/
def nextPc (s : State) (len : Nat) : Compute Byte := addr .advance (s.pc.toNat + len)

/-- `Addr(pc + 2)` of CALL: the return address (R100; OB6 of R112). -/
def returnAddress (s : State) : Compute Byte := addr .returnAddress (s.pc.toNat + 2)

/-- `Addr(sp - 1)`: the slot a push writes, which is also the new `sp` (R95, R96; OB3 of R112). -/
def pushSlot (s : State) : Compute Byte := addr .stackSlot ((s.sp.toNat : Int) - 1)

/-- `MemRead(sp, 1)`: the byte a pop reads; `sp` is a byte, so this never raises (R97, R112). -/
def popByte (s : State) : Compute Byte := memRead s .stackPointer s.sp.toNat

/-- `Addr(sp + 1)`: the new `sp` after a pop (R95, R97; OB4 of R112). -/
def poppedSp (s : State) : Compute Byte := addr .stackPointer (s.sp.toNat + 1)

end Sys2Proof.Machine
end

