-- ==== Sys2Proof/Machine/Alu.lean ====
section
/-! DEFINITION. The ALU block and its three instructions MUL, ADD and CMP (spec/42_alu.md). -/

namespace Sys2Proof.Machine

/-- The ALU's three operations. There is no other operation name, so `UnsupportedAluOperation` is no outcome
(R85, R90, R113, D16, log 16). -/
inductive AluOp where
  | mul | add | cmp
deriving DecidableEq, Repr

/-- Addition modulo 256; the carry is lost (R87, R89). -/
def aluAdd (a b : Byte) : Byte := BitVec.ofNat 8 ((a.toNat + b.toNat) % 256)

/-- Multiplication modulo 256, the low byte of the product (R86, R89). -/
def aluMul (a b : Byte) : Byte := BitVec.ofNat 8 ((a.toNat * b.toNat) % 256)

/-- One ALU operation on two checked register indexes: MUL and ADD write `x[a]`, CMP writes the three flags,
nothing else is touched (R85). -/
def alu (op : AluOp) (a b : RegIdx) (s : State) : State :=
  match op with
  | .mul => s.setReg a (aluMul (s.reg a) (s.reg b))
  | .add => s.setReg a (aluAdd (s.reg a) (s.reg b))
  | .cmp => s.setFlags (compareFlags (s.reg a) (s.reg b))

/-- The shape of the three ALU instructions: two register operands, the operation, the advance by 3 (R86 to
R88). -/
def computeAlu (op : AluOp) (regA regB : Byte) (s : State) : Compute State := do
  let a ← regOperand s 1 regA
  let b ← regOperand s 2 regB
  let npc ← nextPc s 3
  return (alu op a b s).setPc npc

/-- The meaning of MUL (R86). -/
def execMul (regA regB : Byte) (s : State) : Host.Outcome State Fault Refusal :=
  conclude s (computeAlu .mul regA regB s)

/-- The meaning of ADD (R87). -/
def execAdd (regA regB : Byte) (s : State) : Host.Outcome State Fault Refusal :=
  conclude s (computeAlu .add regA regB s)

/-- The meaning of CMP (R88). -/
def execCmp (regA regB : Byte) (s : State) : Host.Outcome State Fault Refusal :=
  conclude s (computeAlu .cmp regA regB s)

end Sys2Proof.Machine
end

