-- ==== Sys2Proof/Machine/Control.lean ====
section
/-! DEFINITION. CALL, RET, JMP, JEQ and JNE (spec/44_control_transfer.md). -/

namespace Sys2Proof.Machine

/-- CALL reg (R100): the return address is pushed, `pc` takes the register's value. -/
def computeCall (reg : Byte) (s : State) : Compute State := do
  let r ← regOperand s 1 reg
  let ret ← returnAddress s
  let nsp ← pushSlot s
  return ((s.memWrite nsp ret).setSp nsp).setPc (s.reg r)

/-- RET (R101): no operand and no sequential advance. -/
def computeRet (s : State) : Compute State := do
  let target ← popByte s
  let nsp ← poppedSp s
  return (s.setPc target).setSp nsp

/-- JMP reg (R102). -/
def computeJmp (reg : Byte) (s : State) : Compute State := do
  let r ← regOperand s 1 reg
  return s.setPc (s.reg r)

/-- A conditional jump: the register byte is checked whether or not the jump is taken, the advance only when it
is not (R103, R104, D8, log 7). -/
def computeBranch (taken : Bool) (reg : Byte) (s : State) : Compute State := do
  let r ← regOperand s 1 reg
  let npc ← if taken then pure (s.reg r) else nextPc s 2
  return s.setPc npc

/-- The meaning of CALL. -/
def execCall (reg : Byte) (s : State) : Host.Outcome State Fault Refusal :=
  conclude s (computeCall reg s)

/-- The meaning of RET. -/
def execRet (s : State) : Host.Outcome State Fault Refusal :=
  conclude s (computeRet s)

/-- The meaning of JMP. -/
def execJmp (reg : Byte) (s : State) : Host.Outcome State Fault Refusal :=
  conclude s (computeJmp reg s)

/-- The meaning of JEQ (R103). -/
def execJeq (reg : Byte) (s : State) : Host.Outcome State Fault Refusal :=
  conclude s (computeBranch s.fl.equal reg s)

/-- The meaning of JNE (R104). -/
def execJne (reg : Byte) (s : State) : Host.Outcome State Fault Refusal :=
  conclude s (computeBranch s.fl.notEqual reg s)

end Sys2Proof.Machine
end

