-- ==== Sys2Proof/Machine/Halt.lean ====
section
/-! DEFINITION. HLT (spec/40_execution_loop.md section 2). -/

namespace Sys2Proof.Machine

/-- The meaning of HLT (R74): `RUN <- Halted`; `pc` keeps the address of the HLT byte (D11, log 10); it cannot
fault, even at address 255. -/
def execHlt (s : State) : Host.Outcome State Fault Refusal := .next (s.setRun .halted)

end Sys2Proof.Machine
end

