-- ==== Sys2Proof/Machine/LoadOutput.lean ====
section
/-! DEFINITION. LDI and PRN (spec/41_load_immediate_and_output.md). -/

namespace Sys2Proof.Machine

/-- LDI reg, imm8 (R80). -/
def computeLdi (reg imm8 : Byte) (s : State) : Compute State := do
  let r ← regOperand s 1 reg
  let v ← operandByte s 2 imm8
  let npc ← nextPc s 3
  return (s.setReg r v).setPc npc

/-- PRN reg (R81). -/
def computePrn (reg : Byte) (s : State) : Compute State := do
  let r ← regOperand s 1 reg
  let npc ← nextPc s 2
  return (s.emit (s.reg r)).setPc npc

/-- The meaning of LDI. -/
def execLdi (reg imm8 : Byte) (s : State) : Host.Outcome State Fault Refusal :=
  conclude s (computeLdi reg imm8 s)

/-- The meaning of PRN. -/
def execPrn (reg : Byte) (s : State) : Host.Outcome State Fault Refusal :=
  conclude s (computePrn reg s)

end Sys2Proof.Machine
end

