-- ==== Sys2Proof/Machine/Stack.lean ====
section
/-! DEFINITION. PUSH and POP (spec/43_stack.md). -/

namespace Sys2Proof.Machine

/-- PUSH reg (R96). Every operand is read before the write, which may land on the instruction's own bytes
(R41). -/
def computePush (reg : Byte) (s : State) : Compute State := do
  let r ← regOperand s 1 reg
  let nsp ← pushSlot s
  let npc ← nextPc s 2
  return ((s.memWrite nsp (s.reg r)).setSp nsp).setPc npc

/-- POP reg (R97). The popped cell keeps its value (R32). -/
def computePop (reg : Byte) (s : State) : Compute State := do
  let r ← regOperand s 1 reg
  let v ← popByte s
  let nsp ← poppedSp s
  let npc ← nextPc s 2
  return ((s.setReg r v).setSp nsp).setPc npc

/-- The meaning of PUSH. -/
def execPush (reg : Byte) (s : State) : Host.Outcome State Fault Refusal :=
  conclude s (computePush reg s)

/-- The meaning of POP. -/
def execPop (reg : Byte) (s : State) : Host.Outcome State Fault Refusal :=
  conclude s (computePop reg s)

end Sys2Proof.Machine
end

