-- ==== Sys2Proof/Syntax.lean ====
section
/-! DEFINITION. The instructions: one constructor per row of spec/opcode_table.json, each operand one whole
byte as the encoding holds it (R51, R52). -/

namespace Sys2Proof

/-- An instruction with its operand bytes. A register operand is the raw byte: a byte above 7 is a legal
encoding of a legal opcode, whose instruction raises `OutOfBounds` when it runs (R11, R56), so the type must
be able to hold it. -/
inductive Instr where
  /-- HLT (R74). -/
  | hlt
  /-- LDI reg, imm8 (R80). -/
  | ldi (reg imm8 : Byte)
  /-- PRN reg (R81). -/
  | prn (reg : Byte)
  /-- MUL regA, regB (R86). -/
  | mul (regA regB : Byte)
  /-- ADD regA, regB (R87). -/
  | add (regA regB : Byte)
  /-- CMP regA, regB (R88). -/
  | cmp (regA regB : Byte)
  /-- PUSH reg (R96). -/
  | push (reg : Byte)
  /-- POP reg (R97). -/
  | pop (reg : Byte)
  /-- CALL reg (R100). -/
  | call (reg : Byte)
  /-- RET (R101). -/
  | ret
  /-- JMP reg (R102). -/
  | jmp (reg : Byte)
  /-- JEQ reg (R103). -/
  | jeq (reg : Byte)
  /-- JNE reg (R104). -/
  | jne (reg : Byte)
deriving DecidableEq, Repr

end Sys2Proof
end

