-- ==== Sys2Proof/WellFormed.lean ====
section
/-! DEFINITION. Well-formed instructions: every register operand names one of R0 to R7 (R51 "legal values 0..7",
R52). An ill-formed instruction still decodes and still has a meaning: it raises `OutOfBounds` (R56). -/

namespace Sys2Proof

/-- A register operand byte is legal when it is 0..7 (R11). -/
def legalReg (b : Byte) : Bool := decide (b.toNat < 8)

/-- Every register operand is legal; `imm8` may be anything (R56). -/
def Instr.wf : Instr → Bool
  | .hlt => true
  | .ldi r _ => legalReg r
  | .prn r => legalReg r
  | .mul a b => legalReg a && legalReg b
  | .add a b => legalReg a && legalReg b
  | .cmp a b => legalReg a && legalReg b
  | .push r => legalReg r
  | .pop r => legalReg r
  | .call r => legalReg r
  | .ret => true
  | .jmp r => legalReg r
  | .jeq r => legalReg r
  | .jne r => legalReg r

end Sys2Proof
end

