-- ==== Sys2Proof/Decode.lean ====
section
/-! DEFINITION. The decoder (R50 to R60) and the encoder, both over an arbitrary `OPCODES` map, and the map's
default value. -/

namespace Sys2Proof

/-- The default value of `OPCODES` (R53). PRESUMED, unsafe, log 1: the byte values are
"[from general knowledge, not in source]" (D1). -/
def opcodes : OpcodeMap
  | .hlt => 0b00000001
  | .ldi => 0b10000010
  | .prn => 0b01000111
  | .mul => 0b10100010
  | .add => 0b10100000
  | .cmp => 0b10100111
  | .push => 0b01000101
  | .pop => 0b01000110
  | .call => 0b01010000
  | .ret => 0b00010001
  | .jmp => 0b01010100
  | .jeq => 0b01010101
  | .jne => 0b01010110

/-- The rows of the opcode map, HLT first: the loop tests for HLT before the dispatch table is consulted
(R57). -/
def Mnemonic.all : List Mnemonic :=
  [.hlt, .ldi, .prn, .mul, .add, .cmp, .push, .pop, .call, .ret, .jmp, .jeq, .jne]

/-- How many operand bytes follow the opcode (R50, R51: formats Z, R, RR and RI). -/
def Mnemonic.operandCount : Mnemonic → Nat
  | .hlt | .ret => 0
  | .prn | .push | .pop | .call | .jmp | .jeq | .jne => 1
  | .ldi | .mul | .add | .cmp => 2

/-- The length of an instruction in bytes, a function of the opcode alone (R50). -/
def Mnemonic.length (k : Mnemonic) : Nat := 1 + k.operandCount

/-- The longest instruction has 3 bytes (R50). -/
def maxLength : Nat := 3

/-- The instruction of a mnemonic whose operand A is `a` and operand B is `b`; a format with fewer operands
does not look at the bytes it lacks (R51). -/
def Mnemonic.instr (k : Mnemonic) (a b : Byte) : Instr :=
  match k with
  | .hlt => .hlt
  | .ldi => .ldi a b
  | .prn => .prn a
  | .mul => .mul a b
  | .add => .add a b
  | .cmp => .cmp a b
  | .push => .push a
  | .pop => .pop a
  | .call => .call a
  | .ret => .ret
  | .jmp => .jmp a
  | .jeq => .jeq a
  | .jne => .jne a

/-- `decode : u8 -> {HLT, ..., JNE} or Illegal` (R60): `none` is Illegal. It looks at the opcode byte and at
nothing else. -/
def decodeOpcode (opc : OpcodeMap) (b : Byte) : Option Mnemonic :=
  Mnemonic.all.find? fun k => opc k == b

/-- Why a list of bytes is no instruction. -/
inductive DecodeError where
  /-- There is no first byte. -/
  | noBytes
  /-- The first byte is not one of the 13 opcodes (R55). -/
  | illegalOpcode (b : Byte)
  /-- The list ends before the last operand byte of the instruction (R50). -/
  | missingOperand (k : Mnemonic)
deriving DecidableEq, Repr

/-- The instruction that a list of bytes begins with, and the bytes after it, which "belong to the next
instruction" (R56). Total on any bytes. -/
def decodeWith (opc : OpcodeMap) : List Byte → Except DecodeError (Instr × List Byte)
  | [] => .error .noBytes
  | b :: rest =>
    match decodeOpcode opc b with
    | none => .error (.illegalOpcode b)
    | some k =>
      if rest.length < k.operandCount then .error (.missingOperand k)
      else .ok (k.instr (rest.getD 0 0) (rest.getD 1 0), rest.drop k.operandCount)

/-- The decoder with the default opcode map. -/
def decode (bytes : List Byte) : Except DecodeError (Instr × List Byte) := decodeWith opcodes bytes

/-- The mnemonic of an instruction. -/
def Instr.mnemonic : Instr → Mnemonic
  | .hlt => .hlt
  | .ldi _ _ => .ldi
  | .prn _ => .prn
  | .mul _ _ => .mul
  | .add _ _ => .add
  | .cmp _ _ => .cmp
  | .push _ => .push
  | .pop _ => .pop
  | .call _ => .call
  | .ret => .ret
  | .jmp _ => .jmp
  | .jeq _ => .jeq
  | .jne _ => .jne

/-- The operand bytes of an instruction in the order of the encoding (R51). -/
def Instr.operandBytes : Instr → List Byte
  | .hlt => []
  | .ldi r v => [r, v]
  | .prn r => [r]
  | .mul a b => [a, b]
  | .add a b => [a, b]
  | .cmp a b => [a, b]
  | .push r => [r]
  | .pop r => [r]
  | .call r => [r]
  | .ret => []
  | .jmp r => [r]
  | .jeq r => [r]
  | .jne r => [r]

/-- The bytes of an instruction at ascending addresses: opcode, then operands (R33, R51). -/
def encodeWith (opc : OpcodeMap) (i : Instr) : List Byte := opc i.mnemonic :: i.operandBytes

/-- The encoder with the default opcode map. -/
def encode (i : Instr) : List Byte := encodeWith opcodes i

/-- The bytes of a table word as they lie in memory, one per whole byte of `nbits`. spec/opcode_table.json
writes an instruction "as one big-endian bit string" whose "opcode is the most significant byte" (R51), so the
first byte is the topmost. DEDUCED, safe, log 18. -/
def wordBytes : Nat → Nat → List Byte
  | 0, _ => []
  | n + 1, w => BitVec.ofNat 8 (w / 256 ^ n) :: wordBytes n w

/-- The bytes of a table word, followed by operand bytes of zero up to the longest instruction. -/
def tableBytes (nbits w : Nat) : List Byte :=
  let bytes := wordBytes (nbits / 8) w
  bytes ++ List.replicate (maxLength - bytes.length) 0

/-- An instruction as one big-endian bit string, the opcode topmost (R51). -/
def tableWord (i : Instr) : Nat := (encode i).foldl (fun w b => w * 256 + b.toNat) 0

/-- The instruction the decoder reads from a word of spec/opcode_table.json, numbered as the table numbers
its bits. -/
def decodeTableWord (nbits w : Nat) : Option Instr :=
  match decode (tableBytes nbits w) with
  | .ok (i, _) => some i
  | .error _ => none

end Sys2Proof
end

