-- ==== Sys2Proof/Machine/Fetch.lean ====
section
/-! DEFINITION. The instruction fetch unit (R71), and placing an instruction where it is fetched. -/

namespace Sys2Proof.Machine

/-- Fetch and decode at `pc` (R70 to R72): `none` where the opcode byte is illegal. The operand bytes are taken
at `pc + 1` and `pc + 2` without a bounds check: `MemRead`'s check stands in the instruction's own rule
(`operandByte`), which raises before such a byte is used (log 17). -/
def fetchWith (opc : OpcodeMap) (s : State) : Option Instr :=
  match decodeOpcode opc s.opcodeByte with
  | none => none
  | some k => some (k.instr (s.byteAt (s.pc.toNat + 1)) (s.byteAt (s.pc.toNat + 2)))

/-- The state with a list of bytes stored from `pc` on and `RUN = Running`, so that the next step fetches
them. -/
def State.placeAtPc (s : State) (bytes : List Byte) : State :=
  { s with mem := Memory.store s.mem s.pc.toNat bytes, run := .running }

end Sys2Proof.Machine
end

