-- ==== Sys2Proof/Machine/Loop.lean ====
section
/-! DEFINITION. One pass of the execution loop, over an arbitrary `OPCODES` map (R70). -/

namespace Sys2Proof.Machine

/-- The body of a step in `Running`: an illegal opcode raises `IllegalInstruction` before any operand is
looked at (R72, R111); otherwise the instruction's rule runs, which alone sets `pc` (R75). -/
def runOneWith (opc : OpcodeMap) (s : State) : Host.Outcome State Fault Refusal :=
  match fetchWith opc s with
  | none => .next (s.raise .illegalInstruction)
  | some i => exec i s

/-- One step, defined only when `RUN = Running`; in `Halted` and `Faulted` there is none (R70, R78). -/
def stepWith (opc : OpcodeMap) (s : State) : Host.Outcome State Fault Refusal :=
  match s.run with
  | .running => runOneWith opc s
  | .halted => .fault .noStepWhenHalted
  | .faulted _ _ _ => .fault .noStepWhenFaulted

/-- The run for at most `fuel` steps (R77): it stops as soon as `RUN` is not `Running`. -/
def runFor (opc : OpcodeMap) : Nat → State → State
  | 0, s => s
  | n + 1, s =>
    match stepWith opc s with
    | .next t => runFor opc n t
    | .fault _ => s
    | .refused _ => s

end Sys2Proof.Machine
end

