-- ==== Sys2Proof/Machine/Step.lean ====
section
/-! DEFINITION. The machine's step with the default opcode map, and where it fetches. -/

namespace Sys2Proof.Machine

/-- One step of the machine (R70). -/
def step (s : State) : Host.Outcome State Fault Refusal := stepWith opcodes s

/-- `s` with the instruction of a table word stored at `pc`, where `step` fetches, and `RUN = Running`. It
stands for the host's `load` (R131, log 12, log 18). -/
def State.withFetchWord (s : State) (nbits w : Nat) : State := s.placeAtPc (tableBytes nbits w)

end Sys2Proof.Machine
end

