-- ==== Sys2Proof/Machine/HostInterface.lean ====
section
/-! DEFINITION. The host's side of the machine (spec/70_reset_and_hazards.md section 2, D12, log 22): construct,
`load`, `run`, reading `OUT` and inspecting the state. None of it is a step of the CORE. -/

namespace Sys2Proof.Machine

/-- The one error of `load` (R114). -/
inductive LoadError where
  /-- The program has more bytes than memory has cells. -/
  | programTooLong
deriving DecidableEq, Repr

/-- What the spec gives no meaning to (U14, D11, log 9). -/
inductive HostRefusal where
  /-- `load` after `run()` was called. Safe: nothing goes on. -/
  | loadAfterRunBegan
  /-- A second `run()`. Safe: nothing goes on. -/
  | runTwice
deriving DecidableEq, Repr

/-- The CORE and whether `run()` has been called on it; the bit is the model's own (log 9). -/
structure Session where
  /-- The CORE's state. -/
  core : State
  /-- Whether `run()` has been called. -/
  begun : Bool
deriving DecidableEq, Repr

/-- The effect of `load` on the CORE: all bytes from address 0 on, or `LoadError` and no cell changed (R131).
Cells beyond the sequence keep what they held (D10). -/
def State.load (s : State) (bytes : List Byte) : Except LoadError State :=
  if Config.memSize < bytes.length then .error .programTooLong
  else .ok { s with mem := Memory.store s.mem 0 bytes }

/-- Construct, that is reset (R130). -/
def Session.construct : Session := { core := State.reset, begun := false }

/-- `load(bytes)`: after reset and before `run` (R131). -/
def Session.load (h : Session) (bytes : List Byte) : Host.Outcome Session LoadError HostRefusal :=
  if h.begun then .refused .loadAfterRunBegan
  else match h.core.load bytes with
    | .ok s => .next { h with core := s }
    | .error e => .fault e

/-- `run()`: once; it sets `RUN = Running` and does not itself write `pc` (R132). -/
def Session.start (h : Session) : Host.Outcome Session LoadError HostRefusal :=
  if h.begun then .refused .runTwice
  else .next { core := h.core.setRun .running, begun := true }

/-- The CORE after at most `fuel` steps of a run; before `run()` "the core takes no step" (R27, R77, R132). -/
def Session.advance (opc : OpcodeMap) (fuel : Nat) (h : Session) : Session :=
  if h.begun then { h with core := runFor opc fuel h.core } else h

/-- Reading `OUT`: at any time. -/
def Session.output (h : Session) : List Byte := h.core.out

/-- Inspecting the state: after the run ends. -/
def Session.inspect (h : Session) : Option State :=
  match h.begun, h.core.run with
  | true, .halted => some h.core
  | true, .faulted _ _ _ => some h.core
  | _, .running => none
  | false, _ => none

end Sys2Proof.Machine
end

