-- ==== Sys2Proof/Safety.lean ====
section
/-! DEFINITION. What counts as a final state, a run, a legal state, an instruction out of range and an unchanged
part of the state, in the terms the statements use. -/

namespace Sys2Proof.Machine

/-! ### Runs -/

/-- `Halted` is the only final state; `Faulted` never is (R129, R134). -/
abbrev State.Final (s : State) : Prop := s.run = .halted

/-- A step goes from one state to the next. -/
abbrev StepsTo (opc : OpcodeMap) (s t : State) : Prop := stepWith opc s = .next t

/-- The states a run passes through from `s`. -/
inductive Reaches (opc : OpcodeMap) (s : State) : State → Prop where
  | refl : Reaches opc s s
  | step {t u : State} : Reaches opc s t → StepsTo opc t u → Reaches opc s u

/-- A run from `s` that has ended in `t`: `RUN` is `Halted` or `Faulted` (R77). -/
def EndsIn (opc : OpcodeMap) (s t : State) : Prop := Reaches opc s t ∧ t.run ≠ .running

/-- A run that ended successfully (R134). -/
def Completes (opc : OpcodeMap) (s t : State) : Prop := EndsIn opc s t ∧ t.Final

/-- A list of instructions executed one after another, none of which raises or halts: `none` if one does. -/
def execAll : List Instr → State → Option State
  | [], s => some s
  | i :: is, s =>
    match exec i s with
    | .next t => if t.run = s.run then execAll is t else none
    | .fault _ => none
    | .refused _ => none

/-! ### Legal states -/

/-- A fault record names the `pc` register and the byte there, and it is `IllegalInstruction` exactly when that
byte is no opcode (R111, R116). -/
def RecordTrue (opc : OpcodeMap) (s : State) : Prop :=
  ∀ c p o, s.run = .faulted c p o →
    p = s.pc ∧ o = s.opcodeByte ∧ (c = .illegalInstruction ↔ ∀ k, opc k ≠ o)

/-- A halted machine's `pc` is the address of a HLT byte (R134). -/
def HaltTrue (opc : OpcodeMap) (s : State) : Prop :=
  s.run = .halted → s.opcodeByte = opc .hlt

/-- What every state of a run satisfies: memory in canonical form with no cell beyond 255 (R45), at most one
flag set (R18), a true fault record, and a halted `pc` at a HLT byte. -/
structure State.Legal (opc : OpcodeMap) (s : State) : Prop where
  mem : Memory.wf s.mem = true
  flags : s.fl.count ≤ 1
  record : RecordTrue opc s
  halt : HaltTrue opc s

/-! ### Out of range -/

/-- The register operand bytes of an instruction (R51). -/
def registerBytes : Instr → List Byte
  | .hlt => []
  | .ldi r _ => [r]
  | .prn r => [r]
  | .mul a b => [a, b]
  | .add a b => [a, b]
  | .cmp a b => [a, b]
  | .push r => [r]
  | .pop r => [r]
  | .call r => [r]
  | .ret => []
  | .jmp r => [r]
  | .jeq r => [r]
  | .jne r => [r]

/-- Whether an instruction ends with a sequential advance (R17): a conditional jump does when it is not
taken. -/
def fallsThrough (f : Flags) : Mnemonic → Bool
  | .hlt | .call | .ret | .jmp => false
  | .ldi | .prn | .mul | .add | .cmp | .push | .pop => true
  | .jeq => !f.e
  | .jne => f.e

/-- The complete list of the causes of `OutOfBounds` for an instruction in a state, row by row as the table of
R112 gives it. -/
inductive OutOfRange (i : Instr) (s : State) : Prop where
  /-- OB1: an operand address beyond memory. -/
  | operandAddress (h : 255 < s.pc.toNat + i.mnemonic.operandCount)
  /-- OB2: a register operand byte is 8..255. -/
  | registerIndex (b : Byte) (hb : b ∈ registerBytes i) (h : 8 ≤ b.toNat)
  /-- OB3: `sp = 0` at a push. -/
  | stackSlot (hi : i.mnemonic = .push ∨ i.mnemonic = .call) (h : s.sp.toNat = 0)
  /-- OB4: `sp = 255` at a pop. -/
  | stackPointer (hi : i.mnemonic = .pop ∨ i.mnemonic = .ret) (h : s.sp.toNat = 255)
  /-- OB5: `pc + len = 256` with the instruction falling through. -/
  | advance (hi : fallsThrough s.fl i.mnemonic = true) (h : s.pc.toNat + i.mnemonic.length = 256)
  /-- OB6: CALL's return address is 256. -/
  | returnAddress (hi : i.mnemonic = .call) (h : s.pc.toNat + 2 = 256)

/-! ### Unchanged parts -/

/-- Every byte of memory reads as before. -/
abbrev SameMemory (s t : State) : Prop := ∀ a, t.byteAt a = s.byteAt a

/-- Every general register is unchanged. -/
abbrev SameRegs (s t : State) : Prop := ∀ j, t.reg j = s.reg j

/-- Every general register is unchanged but the one the operand byte `b` names. -/
abbrev SameRegsBut (b : Byte) (s t : State) : Prop := ∀ j : RegIdx, j.val ≠ b.toNat → t.reg j = s.reg j

/-- The run goes on, or the instruction raised `OutOfBounds`. -/
abbrev RunKeptOrRaised (s t : State) : Prop :=
  t.run = s.run ∨ t.run = .faulted .outOfBounds s.pc s.opcodeByte

/-- Two states that differ at most in the flags Greater and Less. -/
def SameButGreaterLess (s t : State) : Prop :=
  t = { s with fl := { e := s.fl.e, g := t.fl.g, l := t.fl.l } }

/-- The cells a step reads besides the opcode byte: its operand bytes, and the top of the stack for POP and
RET (R32). -/
def readsCell (s : State) (k : Mnemonic) (a : Nat) : Prop :=
  (s.pc.toNat < a ∧ a ≤ s.pc.toNat + k.operandCount) ∨ ((k = .pop ∨ k = .ret) ∧ a = s.sp.toNat)

end Sys2Proof.Machine
end

