-- ==== Sys2Proof/Certificates/Slice0/Obligations.lean ====
section
/-! DEFINITION. The statements for the provers. They are made for every opcode map `opc` wherever the opcode
values do not matter (R53: "no rule of this spec other than the worked encodings depends on the numbers"); the
machine's own step is `stepWith opcodes`. -/

open Sys2Proof Sys2Proof.Machine

/-! ### Reset, legal states -/

/-- The state after reset (spec/10_state.md section 9). The zero registers and the clear flags are the spec's own
choices D6 and D7 (log 2, log 3); `run = running` is the model's reading of R27, which gives `Running` once `run()`
is called (log 12), and the empty `out` is derived from R22 (log 23). Memory, `sp` and `pc` are the source's. -/
def Obligations.ResetValues : Prop :=
  (∀ r, State.reset.reg r = 0) ∧ State.reset.sp.toNat = 0xF4 ∧ State.reset.pc = 0 ∧
    State.reset.fl = { e := false, g := false, l := false } ∧ (∀ a, State.reset.byteAt a = 0) ∧
    State.reset.run = .running ∧ State.reset.out = []

/-- The invariant of `StepKeepsStateLegal` holds after reset, for every opcode map. That at most one flag is set
rests on the clear flags of D7 (log 3); the record and halt clauses hold because reset is `Running` (log 12). -/
def Obligations.ResetIsLegal : Prop := ∀ opc, State.reset.Legal opc

/-- Every step keeps the state legal, from every legal state and for every opcode map: memory stays 256 cells in
canonical form (R45), at most one flag is set (R18), a fault record names the `pc` register, the byte there and
the right cause (R111, R116), and a halted `pc` is at a HLT byte (R134; `pc` at HLT is D11, log 10). -/
def Obligations.StepKeepsStateLegal : Prop :=
  ∀ opc s t, s.Legal opc → stepWith opc s = .next t → t.Legal opc

/-- After any `load` that succeeds on the reset machine, every state of the run is legal. That at most one flag is
set at its start rests on the clear flags of D7 (log 3), and that it starts `Running` on log 12. -/
def Obligations.LoadedRunsStayLegal : Prop :=
  ∀ opc bytes s t, State.reset.load bytes = .ok s → Reaches opc s t → t.Legal opc

/-! ### Encoding -/

/-- For every injective opcode map and every instruction, with every operand byte at every value and whatever
follows: the decoder reads the encoded instruction back and leaves what follows (R53, R56, R60). -/
def Obligations.DecodeOfEncode : Prop :=
  ∀ opc : OpcodeMap, opc.Injective → ∀ i rest, decodeWith opc (encodeWith opc i ++ rest) = .ok (i, rest)

/-- The decoder accepts nothing but encodings, and drops no bit: what it read, encoded, is what it was given. -/
def Obligations.EncodeOfDecode : Prop :=
  ∀ opc bytes i rest, decodeWith opc bytes = .ok (i, rest) → bytes = encodeWith opc i ++ rest

/-- R50: an instruction is its opcode plus zero, one or two operand bytes immediately following. Encodings have the
lengths of the table, and the decoder uses up exactly that many bytes. In memory, the instruction fetched is the one
whose opcode is the byte at `pc`, so its length is a function of that byte alone; and where all its bytes are in
memory, operand A is the byte at `pc + 1` and operand B the byte at `pc + 2`. -/
def Obligations.EncodingLengths : Prop :=
  ∀ opc : OpcodeMap,
    (∀ i, i.mnemonic ∈ [Mnemonic.hlt, .ret] → (encodeWith opc i).length = 1) ∧
    (∀ i, i.mnemonic ∈ [Mnemonic.prn, .push, .pop, .call, .jmp, .jeq, .jne] → (encodeWith opc i).length = 2) ∧
    (∀ i, i.mnemonic ∈ [Mnemonic.ldi, .mul, .add, .cmp] → (encodeWith opc i).length = 3) ∧
    (∀ i, encodeWith opc i = opc i.mnemonic :: i.operandBytes) ∧
    (∀ bytes i rest, decodeWith opc bytes = .ok (i, rest) →
      bytes.length = (encodeWith opc i).length + rest.length) ∧
    (opc.Injective → ∀ s k, s.byteAt s.pc.toNat = opc k → ∃ i, fetchWith opc s = some i ∧ i.mnemonic = k) ∧
    (∀ s s' i i', fetchWith opc s = some i → fetchWith opc s' = some i' →
      s.byteAt s.pc.toNat = s'.byteAt s'.pc.toNat → (encodeWith opc i).length = (encodeWith opc i').length) ∧
    (∀ s i, fetchWith opc s = some i →
      s.byteAt s.pc.toNat = opc i.mnemonic ∧
      (s.pc.toNat + 2 ≤ 256 → ∀ a, i ∈ [.prn a, .push a, .pop a, .call a, .jmp a, .jeq a, .jne a] →
        a = s.byteAt (s.pc.toNat + 1)) ∧
      (s.pc.toNat + 3 ≤ 256 → ∀ a b, i ∈ [.ldi a b, .mul a b, .add a b, .cmp a b] →
        a = s.byteAt (s.pc.toNat + 1) ∧ b = s.byteAt (s.pc.toNat + 2)))

/-- With the default opcode map, whose values are D1 (log 1), the legal opcode bytes are the 13 of the table and the
other 243 byte values are illegal (spec/30_encoding.md sections 3 and 4). -/
def Obligations.LegalOpcodesAreThirteen : Prop :=
  (∀ b : Byte, decodeOpcode opcodes b = none ↔
    b ∉ [0x01, 0x82, 0x47, 0xA2, 0xA0, 0xA7, 0x45, 0x46, 0x50, 0x11, 0x54, 0x55, 0x56]) ∧
  ((List.range 256).filter fun n => (decodeOpcode opcodes (BitVec.ofNat 8 n)).isNone).length = 243

/-- Words written out from the table of R53 decode to the instructions they stand for (the values are D1,
log 1). -/
def Obligations.TableWordsDecode : Prop :=
  decodeTableWord 8 0b00000001 = some .hlt ∧
  decodeTableWord 24 0b10000010_00000111_11111111 = some (.ldi 7 255) ∧
  decodeTableWord 16 0b01000111_00000000 = some (.prn 0) ∧
  decodeTableWord 24 0b10100010_00000000_00000001 = some (.mul 0 1) ∧
  decodeTableWord 16 0b01000101_00000110 = some (.push 6) ∧
  decodeTableWord 16 0b01010000_00000001 = some (.call 1) ∧
  decodeTableWord 8 0b00000000 = none ∧ decodeTableWord 24 0xA80000 = none

/-- For every instruction, with every operand byte at every value: its table word decodes to it, and placed where
the machine fetches, at a `pc` that leaves room for it, it is what the next step runs (the numbering of the word's
bits is log 18, the placing is log 12). -/
def Obligations.PlacedTableWordRuns : Prop :=
  ∀ i : Instr,
    decodeTableWord (8 * (encode i).length) (tableWord i) = some i ∧
    ∀ s : State, Memory.wf s.mem = true → s.pc.toNat + 3 ≤ 256 →
      step (s.withFetchWord (8 * (encode i).length) (tableWord i)) =
        exec i (s.withFetchWord (8 * (encode i).length) (tableWord i))

/-! ### The step -/

/-- When the bytes at `pc`, all inside memory, are the encoding of an instruction, a step is that instruction's
meaning, with nothing around it. -/
def Obligations.StepRunsInstructionAtPc : Prop :=
  ∀ opc : OpcodeMap, opc.Injective → ∀ (s : State) (i : Instr), s.run = .running →
    s.pc.toNat + (encodeWith opc i).length ≤ 256 →
    (∀ k, k < (encodeWith opc i).length → s.byteAt (s.pc.toNat + k) = (encodeWith opc i).getD k 0) →
    stepWith opc s = exec i s

/-- R70 with R75: a step reads the opcode at `pc`; on HLT the run state becomes `Halted` and nothing else
changes; on a byte that is no opcode it raises `IllegalInstruction` and `pc` stays; on any other it is the rule of
that instruction on the bytes after the opcode, and adds nothing to it. That HLT leaves `pc` at its own address is
the spec's own choice D11 (log 10). -/
def Obligations.StepFetchesDecodesExecutes : Prop :=
  ∀ opc : OpcodeMap, opc.Injective → ∀ s : State, s.run = .running →
    (s.opcodeByte = opc .hlt → stepWith opc s = .next { s with run := .halted }) ∧
    ((∀ k, opc k ≠ s.opcodeByte) →
      stepWith opc s = .next { s with run := .faulted .illegalInstruction s.pc s.opcodeByte }) ∧
    (∀ k, opc k = s.opcodeByte →
      stepWith opc s = exec (k.instr (s.byteAt (s.pc.toNat + 1)) (s.byteAt (s.pc.toNat + 2))) s)

/-- R111: an opcode byte that is none of the 13 raises `IllegalInstruction`; every other piece of state is
unchanged, whatever the operand bytes, and no further instruction is executed. -/
def Obligations.IllegalOpcodeRaises : Prop :=
  ∀ (opc : OpcodeMap) (s : State), s.run = .running → (∀ k, opc k ≠ s.opcodeByte) →
    ∃ t, stepWith opc s = .next t ∧ t.run = .faulted .illegalInstruction s.pc s.opcodeByte ∧
      t.regs = s.regs ∧ t.sp = s.sp ∧ t.pc = s.pc ∧ t.fl = s.fl ∧ t.mem = s.mem ∧ t.out = s.out ∧
      ∀ u, stepWith opc t ≠ .next u

/-- R78: exactly one next state from every `Running` state, and no step in `Halted` and `Faulted`. -/
def Obligations.StepTotalExactlyWhenRunning : Prop :=
  ∀ (opc : OpcodeMap) (s : State),
    (s.run = .running → ∃ t, stepWith opc s = .next t ∧ ∀ u, stepWith opc s = .next u → u = t) ∧
    (s.run ≠ .running → ∀ t, stepWith opc s ≠ .next t)

/-- R4: the step is total on `Running`, and two runs from one state that have ended ended in one state. -/
def Obligations.RunsAreDeterministic : Prop :=
  ∀ opc : OpcodeMap,
    (∀ s : State, s.run = .running → ∃ t, stepWith opc s = .next t) ∧
    (∀ s t u : State, EndsIn opc s t → EndsIn opc s u → t = u)

/-- The run (spec/40_execution_loop.md section 1): running with a step budget passes only through states of the
run, and with enough budget it arrives at the state the run ends in. -/
def Obligations.BoundedRunFollowsSteps : Prop :=
  ∀ (opc : OpcodeMap) (s : State),
    (∀ n, Reaches opc s (runFor opc n s)) ∧ (∀ t, EndsIn opc s t → ∃ n, ∀ m, n ≤ m → runFor opc m s = t)

/-- A step reaches `Halted` exactly when it fetched HLT, and then nothing but `run` changed; that `pc` stays at the
HLT byte is the spec's own choice D11 (log 10). -/
def Obligations.HaltedExactlyByHlt : Prop :=
  ∀ opc : OpcodeMap, opc.Injective → ∀ s t : State, stepWith opc s = .next t →
    (t.run = .halted ↔ s.opcodeByte = opc .hlt) ∧ (t.run = .halted → t = { s with run := .halted })

/-- A run from a legal state that ended successfully stands at a HLT byte and has no further step, for every opcode
map (spec/70_reset_and_hazards.md section 2; `pc` at HLT is D11, log 10). -/
def Obligations.CompletedRunStandsAtHlt : Prop :=
  ∀ (opc : OpcodeMap) (s t : State), s.Legal opc → Completes opc s t →
    t.opcodeByte = opc .hlt ∧ ∀ u, stepWith opc t ≠ .next u

/-! ### What each instruction does, and that it completes -/

/-- HLT completes in every state (spec/40_execution_loop.md section 2; `pc` unchanged is D11, log 10). -/
def Obligations.HltHalts : Prop :=
  ∀ s, ∃ t, exec .hlt s = .next t ∧ t.run = .halted ∧ t.pc = s.pc

/-- LDI completes with a register operand 0..7 and its last byte at or below 254, and loads the immediate
unaltered. -/
def Obligations.LdiLoadsImmediate : Prop :=
  ∀ (reg imm8 : Byte) (r : RegIdx) (s : State), reg.toNat = r.val → s.pc.toNat + 3 ≤ 255 →
    ∃ t, exec (.ldi reg imm8) s = .next t ∧ t.run = s.run ∧ t.reg r = imm8 ∧ t.pc.toNat = s.pc.toNat + 3

/-- PRN completes and appends the register's value to `OUT`. -/
def Obligations.PrnEmitsRegister : Prop :=
  ∀ (reg : Byte) (r : RegIdx) (s : State), reg.toNat = r.val → s.pc.toNat + 2 ≤ 255 →
    ∃ t, exec (.prn reg) s = .next t ∧ t.run = s.run ∧ t.out = s.out ++ [s.reg r] ∧
      t.pc.toNat = s.pc.toNat + 2

/-- MUL completes and keeps the low byte of the product; both sources are read before the write. -/
def Obligations.MulMultipliesModulo256 : Prop :=
  ∀ (regA regB : Byte) (a b : RegIdx) (s : State), regA.toNat = a.val → regB.toNat = b.val →
    s.pc.toNat + 3 ≤ 255 →
    ∃ t, exec (.mul regA regB) s = .next t ∧ t.run = s.run ∧
      (t.reg a).toNat = ((s.reg a).toNat * (s.reg b).toNat) % 256 ∧ t.pc.toNat = s.pc.toNat + 3

/-- ADD completes and keeps the low byte of the sum. -/
def Obligations.AddAddsModulo256 : Prop :=
  ∀ (regA regB : Byte) (a b : RegIdx) (s : State), regA.toNat = a.val → regB.toNat = b.val →
    s.pc.toNat + 3 ≤ 255 →
    ∃ t, exec (.add regA regB) s = .next t ∧ t.run = s.run ∧
      (t.reg a).toNat = ((s.reg a).toNat + (s.reg b).toNat) % 256 ∧ t.pc.toNat = s.pc.toNat + 3

/-- CMP completes and sets each flag exactly when its comparison holds, of the unsigned values (D9, log 8), so
exactly one is set. -/
def Obligations.CmpSetsExactlyOneFlag : Prop :=
  ∀ (regA regB : Byte) (a b : RegIdx) (s : State), regA.toNat = a.val → regB.toNat = b.val →
    s.pc.toNat + 3 ≤ 255 →
    ∃ t, exec (.cmp regA regB) s = .next t ∧ t.run = s.run ∧
      (t.fl.e = true ↔ (s.reg a).toNat = (s.reg b).toNat) ∧
      (t.fl.g = true ↔ (s.reg b).toNat < (s.reg a).toNat) ∧
      (t.fl.l = true ↔ (s.reg a).toNat < (s.reg b).toNat) ∧ t.fl.count = 1 ∧ t.pc.toNat = s.pc.toNat + 3

/-- PUSH completes when `sp` is not 0: the register's value lands at `sp - 1`, which is the new `sp`. -/
def Obligations.PushStoresBelowStackPointer : Prop :=
  ∀ (reg : Byte) (r : RegIdx) (s : State), Memory.wf s.mem = true → reg.toNat = r.val → 1 ≤ s.sp.toNat →
    s.pc.toNat + 2 ≤ 255 →
    ∃ t, exec (.push reg) s = .next t ∧ t.run = s.run ∧ t.byteAt (s.sp.toNat - 1) = s.reg r ∧
      t.sp.toNat = s.sp.toNat - 1 ∧ t.pc.toNat = s.pc.toNat + 2

/-- POP completes when `sp` is not 255: the register takes the byte at `sp`, and `sp` moves up by one. -/
def Obligations.PopLoadsFromStackPointer : Prop :=
  ∀ (reg : Byte) (r : RegIdx) (s : State), reg.toNat = r.val → s.sp.toNat ≤ 254 → s.pc.toNat + 2 ≤ 255 →
    ∃ t, exec (.pop reg) s = .next t ∧ t.run = s.run ∧ t.reg r = s.byteAt s.sp.toNat ∧
      t.sp.toNat = s.sp.toNat + 1 ∧ t.pc.toNat = s.pc.toNat + 2

/-- CALL completes when `sp` is not 0: it pushes the address after itself and jumps to the register's value. -/
def Obligations.CallPushesReturnAddressAndJumps : Prop :=
  ∀ (reg : Byte) (r : RegIdx) (s : State), Memory.wf s.mem = true → reg.toNat = r.val → 1 ≤ s.sp.toNat →
    s.pc.toNat + 2 ≤ 255 →
    ∃ t, exec (.call reg) s = .next t ∧ t.run = s.run ∧
      (t.byteAt (s.sp.toNat - 1)).toNat = s.pc.toNat + 2 ∧ t.sp.toNat = s.sp.toNat - 1 ∧ t.pc = s.reg r

/-- RET completes when `sp` is not 255, at any `pc`: it jumps to the byte at `sp` and moves `sp` up by one. -/
def Obligations.RetPopsProgramCounter : Prop :=
  ∀ s : State, s.sp.toNat ≤ 254 →
    ∃ t, exec .ret s = .next t ∧ t.run = s.run ∧ t.pc = s.byteAt s.sp.toNat ∧ t.sp.toNat = s.sp.toNat + 1

/-- JMP completes with its operand byte inside memory, to any byte in the register. -/
def Obligations.JmpJumpsToRegister : Prop :=
  ∀ (reg : Byte) (r : RegIdx) (s : State), reg.toNat = r.val → s.pc.toNat + 1 ≤ 255 →
    ∃ t, exec (.jmp reg) s = .next t ∧ t.run = s.run ∧ t.pc = s.reg r

/-- JEQ completes: with Equal set it jumps, also at address 254; with Equal clear it falls through by 2. -/
def Obligations.JeqJumpsWhenEqual : Prop :=
  ∀ (reg : Byte) (r : RegIdx) (s : State), reg.toNat = r.val →
    (s.fl.e = true → s.pc.toNat + 1 ≤ 255 →
      ∃ t, exec (.jeq reg) s = .next t ∧ t.run = s.run ∧ t.pc = s.reg r) ∧
    (s.fl.e = false → s.pc.toNat + 2 ≤ 255 →
      ∃ t, exec (.jeq reg) s = .next t ∧ t.run = s.run ∧ t.pc.toNat = s.pc.toNat + 2)

/-- JNE completes: with Equal clear it jumps, also at address 254; with Equal set it falls through by 2. -/
def Obligations.JneJumpsWhenNotEqual : Prop :=
  ∀ (reg : Byte) (r : RegIdx) (s : State), reg.toNat = r.val →
    (s.fl.e = false → s.pc.toNat + 1 ≤ 255 →
      ∃ t, exec (.jne reg) s = .next t ∧ t.run = s.run ∧ t.pc = s.reg r) ∧
    (s.fl.e = true → s.pc.toNat + 2 ≤ 255 →
      ∃ t, exec (.jne reg) s = .next t ∧ t.run = s.run ∧ t.pc.toNat = s.pc.toNat + 2)

/-! ### Faults -/

/-- When an instruction raises: on exactly the six conditions of spec/60_exceptions.md section 1 it takes the fatal
error, which changes `run` alone; otherwise it completes. Which values are out of range, and that nothing is
written, are the spec's own choices D3, D4, D5 and D8 (log 4 to log 7). -/
def Obligations.InstructionRaisesExactlyOutOfRange : Prop :=
  ∀ (i : Instr) (s : State),
    (OutOfRange i s → exec i s = .next { s with run := .faulted .outOfBounds s.pc s.opcodeByte }) ∧
    (¬ OutOfRange i s → ∃ t, exec i s = .next t ∧ t.run = if i = .hlt then .halted else s.run)

/-- A step's fault is precise and its record true: only `run` changed, and it holds the `pc` and the byte there;
the cause is `OutOfBounds` exactly when an instruction was fetched and is out of range (D5, D14; log 6,
log 14). -/
def Obligations.FaultsArePrecise : Prop :=
  ∀ (opc : OpcodeMap) (s t : State) (c : Cause) (p o : Byte), stepWith opc s = .next t →
    t.run = .faulted c p o →
    t = { s with run := .faulted c p o } ∧ p = s.pc ∧ o = s.opcodeByte ∧
      (c = .outOfBounds ↔ ∃ i, fetchWith opc s = some i ∧ OutOfRange i s)

/-! ### Frames -/

/-- LDI, MUL and ADD leave every register but their destination, and everything else but `pc`. -/
def Obligations.RegisterWritersFrame : Prop :=
  ∀ (i : Instr) (reg x : Byte) (s t : State), (i = .ldi reg x ∨ i = .mul reg x ∨ i = .add reg x) →
    exec i s = .next t →
    SameRegsBut reg s t ∧ t.sp = s.sp ∧ t.fl = s.fl ∧ SameMemory s t ∧ t.out = s.out ∧ RunKeptOrRaised s t

/-- PRN, CMP, JMP, JEQ and JNE write no register, no `sp` and no memory; PRN alone may append to `OUT`, and CMP
alone may write the flags. -/
def Obligations.OutputCompareJumpFrame : Prop :=
  ∀ (i : Instr) (reg x : Byte) (s t : State),
    (i = .prn reg ∨ i = .cmp reg x ∨ i = .jmp reg ∨ i = .jeq reg ∨ i = .jne reg) → exec i s = .next t →
    SameRegs s t ∧ t.sp = s.sp ∧ SameMemory s t ∧ (i ≠ .cmp reg x → t.fl = s.fl) ∧
      (i ≠ .prn reg → t.out = s.out) ∧ RunKeptOrRaised s t

/-- HLT leaves everything but `run`. -/
def Obligations.HltFrame : Prop :=
  ∀ s t : State, exec .hlt s = .next t →
    SameRegs s t ∧ t.sp = s.sp ∧ t.pc = s.pc ∧ t.fl = s.fl ∧ SameMemory s t ∧ t.out = s.out

/-- PUSH and CALL write the one byte at the slot their rule computes, `sp` and `pc`, and nothing else. -/
def Obligations.PushCallFrame : Prop :=
  ∀ (i : Instr) (reg : Byte) (s t : State), (i = .push reg ∨ i = .call reg) → exec i s = .next t →
    SameRegs s t ∧ t.fl = s.fl ∧ t.out = s.out ∧ RunKeptOrRaised s t ∧ (t.sp = s.sp ∨ pushSlot s = .ok t.sp) ∧
    (∀ a : Byte, pushSlot s = .ok a → ∀ n, n ≠ a.toNat → t.byteAt n = s.byteAt n) ∧
    ((∀ a : Byte, pushSlot s ≠ .ok a) → SameMemory s t)

/-- POP writes its register, `sp` and `pc`, RET `sp` and `pc`; neither writes memory. -/
def Obligations.PopRetFrame : Prop :=
  (∀ (reg : Byte) (s t : State), exec (.pop reg) s = .next t →
    SameRegsBut reg s t ∧ t.fl = s.fl ∧ SameMemory s t ∧ t.out = s.out ∧ RunKeptOrRaised s t) ∧
  (∀ s t : State, exec .ret s = .next t →
    SameRegs s t ∧ t.fl = s.fl ∧ SameMemory s t ∧ t.out = s.out ∧ RunKeptOrRaised s t)

/-! ### Whole-machine rules -/

/-- Only CMP writes a flag, and after a CMP that did not raise exactly one is set (spec/10_state.md section 4). -/
def Obligations.OnlyCmpWritesFlags : Prop :=
  ∀ opc : OpcodeMap, opc.Injective → ∀ s t : State, stepWith opc s = .next t →
    (s.opcodeByte ≠ opc .cmp → t.fl = s.fl) ∧
    (s.opcodeByte = opc .cmp → t.run = .running → t.fl.count = 1)

/-- R107: the only conditions are Equal and not Equal. JEQ jumps when Equal is set and falls through by 2 when it is
clear, JNE the other way round; CMP sets Greater and Less; and no step of the machine behaves differently when only
Greater and Less differ. -/
def Obligations.NothingTestsGreaterOrLess : Prop :=
  (∀ (opc : OpcodeMap) (s s' t : State), SameButGreaterLess s s' → stepWith opc s = .next t →
    ∃ t', stepWith opc s' = .next t' ∧ SameButGreaterLess t t') ∧
  (∀ (reg : Byte) (s : State),
    (s.fl.e = true → exec (.jeq reg) s = exec (.jmp reg) s) ∧
    (s.fl.e = false → exec (.jne reg) s = exec (.jmp reg) s)) ∧
  (∀ (reg : Byte) (r : RegIdx) (s : State), reg.toNat = r.val → s.pc.toNat + 2 ≤ 255 →
    (s.fl.e = false → ∃ t, exec (.jeq reg) s = .next t ∧ t.run = s.run ∧ t.pc.toNat = s.pc.toNat + 2) ∧
    (s.fl.e = true → ∃ t, exec (.jne reg) s = .next t ∧ t.run = s.run ∧ t.pc.toNat = s.pc.toNat + 2)) ∧
  (∀ (regA regB : Byte) (a b : RegIdx) (s : State), regA.toNat = a.val → regB.toNat = b.val →
    s.pc.toNat + 3 ≤ 255 →
    ∃ t, exec (.cmp regA regB) s = .next t ∧ (s.reg a = s.reg b → t.fl.g = false ∧ t.fl.l = false) ∧
      (s.reg a ≠ s.reg b → t.fl.g = !t.fl.l))

/-- A step moves `sp` by at most one: down by PUSH and CALL alone, up by POP and RET alone
(spec/10_state.md section 2). -/
def Obligations.StackPointerMovesByOne : Prop :=
  ∀ (opc : OpcodeMap) (s t : State), stepWith opc s = .next t → t.sp = s.sp ∨
    ((s.opcodeByte = opc .push ∨ s.opcodeByte = opc .call) ∧ t.sp.toNat + 1 = s.sp.toNat) ∨
    ((s.opcodeByte = opc .pop ∨ s.opcodeByte = opc .ret) ∧ t.sp.toNat = s.sp.toNat + 1)

/-- The output channel (spec/41_load_immediate_and_output.md): a PRN that does not raise appends exactly the value of
its register, nothing else appends anything, and what `OUT` already holds has no effect on a step. That `OUT` is a
list of bytes is D13 (log 13), and that a PRN which raises, at address 254 say, appends nothing is D5 (log 6). -/
def Obligations.OutputGrowsByPrnAlone : Prop :=
  ∀ opc : OpcodeMap, opc.Injective → ∀ s t : State, stepWith opc s = .next t →
    (s.opcodeByte = opc .prn → t.run = .running →
      ∃ r : RegIdx, (s.byteAt (s.pc.toNat + 1)).toNat = r.val ∧ t.out = s.out ++ [s.reg r]) ∧
    (s.opcodeByte ≠ opc .prn → t.out = s.out) ∧ (t.run ≠ .running → t.out = s.out) ∧
    (∀ o, ∃ new, t.out = s.out ++ new ∧ stepWith opc { s with out := o } = .next { t with out := o ++ new })

/-- Who writes memory (spec/20_memory.md section 8): reset (all cells 0), `load` before the run (its own bytes only,
refused once the run began: D10 and D11, log 9), and PUSH and CALL (one cell, at `sp - 1`); a step of anything else
leaves every cell. -/
def Obligations.MemoryWrittenByPushAndCallAlone : Prop :=
  (∀ a, State.reset.byteAt a = 0) ∧
  (∀ (s t : State) (bytes : List Byte), s.load bytes = .ok t →
    ∀ a, bytes.length ≤ a → t.byteAt a = s.byteAt a) ∧
  (∀ (h : Session) (bytes : List Byte), h.begun = true → ∀ h', h.load bytes ≠ .next h') ∧
  (∀ (opc : OpcodeMap) (s t : State) (a : Nat), stepWith opc s = .next t → t.byteAt a ≠ s.byteAt a →
    (s.opcodeByte = opc .push ∨ s.opcodeByte = opc .call) ∧ a + 1 = s.sp.toNat)

/-- A step reads the opcode byte, the operand bytes of that opcode, and for POP and RET the byte at `sp`, and no
other cell: with any other memory that agrees on these, it does the same, to memory as well
(spec/20_memory.md section 2). -/
def Obligations.StepReadsOnlyItsCells : Prop :=
  ∀ opc : OpcodeMap, opc.Injective → ∀ (s t : State) (m : Memory), Memory.wf s.mem = true → Memory.wf m = true →
    Memory.get m s.pc.toNat = s.opcodeByte →
    (∀ k a, opc k = s.opcodeByte → readsCell s k a → Memory.get m a = s.byteAt a) →
    stepWith opc s = .next t →
    ∃ t', stepWith opc { s with mem := m } = .next t' ∧ t'.regs = t.regs ∧ t'.sp = t.sp ∧ t'.pc = t.pc ∧
      t'.fl = t.fl ∧ t'.run = t.run ∧ t'.out = t.out ∧
      ∀ a, t'.byteAt a = Memory.get m a ∧ t.byteAt a = s.byteAt a ∨ t'.byteAt a = t.byteAt a

/-- The ALU: ADD and MUL read `x[a]` and `x[b]` and write `x[a]`, CMP reads them and writes the three flags, and the
ALU touches nothing else (R85). -/
def Obligations.AluTouchesOnlyItsTarget : Prop :=
  ∀ (a b : RegIdx) (s : State),
    (∀ op, op = AluOp.add ∨ op = AluOp.mul →
      (∀ j, j ≠ a → (alu op a b s).reg j = s.reg j) ∧ (alu op a b s).fl = s.fl ∧
      ∀ s' : State, s'.reg a = s.reg a → s'.reg b = s.reg b → (alu op a b s').reg a = (alu op a b s).reg a) ∧
    ((∀ j, (alu .cmp a b s).reg j = s.reg j) ∧
      ∀ s' : State, s'.reg a = s.reg a → s'.reg b = s.reg b → (alu .cmp a b s').fl = (alu .cmp a b s).fl) ∧
    (∀ op, (alu op a b s).mem = s.mem ∧ (alu op a b s).pc = s.pc ∧ (alu op a b s).sp = s.sp ∧
      (alu op a b s).run = s.run ∧ (alu op a b s).out = s.out)

/-- The arithmetic laws of spec/42_alu.md section 3: modulo 256, the low byte the same whether the operands are read
as signed or as unsigned, and the unsigned order (D9, log 8), of which exactly one case holds. -/
def Obligations.AluArithmeticLaws : Prop :=
  ∀ a b : Byte,
    (aluAdd a b).toNat = (a.toNat + b.toNat) % 256 ∧ (aluMul a b).toNat = (a.toNat * b.toNat) % 256 ∧
    aluAdd a b = BitVec.ofInt 8 (a.toInt + b.toInt) ∧ aluMul a b = BitVec.ofInt 8 (a.toInt * b.toInt) ∧
    (compareFlags a b).count = 1 ∧ (compareFlags a b).e = decide (a = b) ∧
    (compareFlags a b).g = BitVec.ult b a ∧ (compareFlags a b).l = BitVec.ult a b

/-! ### Stack and subroutines -/

/-- Stack balance (spec/43_stack.md): pushing `n` registers and then popping `n` gives `sp` back, and with distinct
destinations the values come back in reverse order of pushing, whenever none of the instructions raises. -/
def Obligations.StackIsBalancedAndLifo : Prop :=
  ∀ (rs qs : List Byte) (s t : State), Memory.wf s.mem = true → s.run = .running → rs.length = qs.length →
    execAll (rs.map Instr.push ++ qs.map Instr.pop) s = some t →
    t.sp = s.sp ∧
    (qs.Nodup → ∀ (k : Nat) (r q : RegIdx), k < qs.length → (qs.getD k 0).toNat = q.val →
      (rs.getD (rs.length - 1 - k) 0).toNat = r.val → t.reg q = s.reg r)

/-- CALL, then anything that brings `sp` back to the pushed slot and leaves the slot's byte, then RET: the run
resumes at the instruction after the CALL, with `sp` as before it (spec/44_control_transfer.md, RET). -/
def Obligations.CallThenRetResumesAfterCall : Prop :=
  ∀ (reg : Byte) (s t u : State), Memory.wf s.mem = true → s.run = .running → exec (.call reg) s = .next t →
    t.run = .running → u.sp = t.sp → u.byteAt t.sp.toNat = t.byteAt t.sp.toNat →
    ∃ v, exec .ret u = .next v ∧ v.run = u.run ∧ v.pc.toNat = s.pc.toNat + 2 ∧ v.sp = s.sp

/-- The byte stored by PUSH (the register's value) or by CALL (the return address) is what the very next fetch reads,
as the opcode or as an operand byte, when it reads that cell; every other cell it reads is as it was. No fence is
needed (R40, R43). -/
def Obligations.StoreSeenByNextFetch : Prop :=
  ∀ (i : Instr) (reg : Byte) (r : RegIdx) (v : Byte) (s t : State), Memory.wf s.mem = true → s.run = .running →
    reg.toNat = r.val → (i = .push reg ∧ v = s.reg r ∨ i = .call reg ∧ v.toNat = s.pc.toNat + 2) →
    exec i s = .next t → t.run = .running →
    (t.pc = t.sp → t.opcodeByte = v) ∧ (t.pc ≠ t.sp → t.opcodeByte = s.byteAt t.pc.toNat) ∧
    ∀ k, k ≤ 2 → t.byteAt (t.pc.toNat + k) =
      if t.pc.toNat + k = t.sp.toNat then v else s.byteAt (t.pc.toNat + k)

/-! ### The host interface -/

/-- `load`: more than 256 bytes give `LoadError`; otherwise the bytes lie from address 0 on, every cell beyond
them keeps what it held (D10, log 9), memory stays canonical, and nothing but memory changes. -/
def Obligations.LoadCopiesOrFails : Prop :=
  ∀ (s : State) (bytes : List Byte), Memory.wf s.mem = true →
    (256 < bytes.length → s.load bytes = .error .programTooLong) ∧
    (bytes.length ≤ 256 → ∃ t, s.load bytes = .ok t ∧ t = { s with mem := t.mem } ∧ Memory.wf t.mem = true ∧
      (∀ k, k < bytes.length → t.byteAt k = bytes.getD k 0) ∧
      (∀ k, bytes.length ≤ k → t.byteAt k = s.byteAt k))

/-- The order of the host's operations (spec/70_reset_and_hazards.md section 2, D11, log 9): `load` only before
`run`, `run` once, no step before it, and a `LoadError` answers no session, so that no run starts from it. -/
def Obligations.HostOperationOrder : Prop :=
  ∀ h : Session,
    (h.begun = true → ∀ bytes, h.load bytes = .refused .loadAfterRunBegan) ∧
    (h.begun = true → h.start = .refused .runTwice) ∧
    (h.begun = false → ∀ opc n, h.advance opc n = h) ∧
    (h.begun = false → ∃ h', h.start = .next h' ∧ h'.begun = true ∧ h'.core.run = .running ∧
      h'.core.pc = h.core.pc ∧ h'.core.mem = h.core.mem ∧ ∀ opc n, (h'.advance opc n).core = runFor opc n h'.core) ∧
    (h.begun = false → ∀ bytes, 256 < bytes.length → h.load bytes = .fault .programTooLong)

/-- `run()` without a load: with the default opcode map, whose values are D1 (log 1), the zeroed memory raises
`IllegalInstruction` at `pc = 0`. It takes a step of `State.reset` itself, so it rests on reset being `Running` before
`run()` is called, the model's reading of R27 (log 12). -/
def Obligations.RunWithoutLoadFaults : Prop :=
  ∃ t, step State.reset = .next t ∧ t.run = .faulted .illegalInstruction 0 0 ∧
    t = { State.reset with run := t.run }
end

