-- ==== Sys2Proof/Laws/Decode.lean ====
section
/-! SUPPORT. The opcode map as the decoder reads it, and the mnemonic and the operands of a decoded
instruction. -/

namespace Sys2Proof

theorem Mnemonic.mem_all (k : Mnemonic) : k ∈ Mnemonic.all := by cases k <;> decide

/-- The decoder answers a mnemonic only for its own opcode byte. -/
theorem opcode_of_decodeOpcode {opc : OpcodeMap} {b : Byte} {k : Mnemonic} (h : decodeOpcode opc b = some k) :
    opc k = b := by
  simpa using List.find?_some h

/-- A byte is illegal exactly when it is no mnemonic's opcode (R55). -/
theorem decodeOpcode_eq_none {opc : OpcodeMap} {b : Byte} : decodeOpcode opc b = none ↔ ∀ k, opc k ≠ b := by
  simp only [decodeOpcode, List.find?_eq_none, beq_iff_eq]
  exact ⟨fun h k => h k k.mem_all, fun h k _ => h k⟩

/-- With an injective map the decoder reads each opcode byte back (R53). -/
theorem decodeOpcode_opc {opc : OpcodeMap} (hinj : opc.Injective) (k : Mnemonic) :
    decodeOpcode opc (opc k) = some k := by
  cases h : decodeOpcode opc (opc k) with
  | none => exact absurd rfl (decodeOpcode_eq_none.1 h k)
  | some k' => rw [hinj (opcode_of_decodeOpcode h)]

theorem decodeOpcode_eq_some {opc : OpcodeMap} (hinj : opc.Injective) {b : Byte} {k : Mnemonic} :
    decodeOpcode opc b = some k ↔ opc k = b :=
  ⟨opcode_of_decodeOpcode, fun h => h ▸ decodeOpcode_opc hinj k⟩

/-- The default opcode map meets the constraint (R53). -/
theorem opcodes_injective : opcodes.Injective := by
  intro k k' h
  revert h
  cases k <;> cases k' <;> simp [opcodes]

@[simp] theorem Mnemonic.instr_mnemonic (k : Mnemonic) (a b : Byte) : (k.instr a b).mnemonic = k := by
  cases k <;> rfl

/-- The operand bytes of a built instruction are the first of the two bytes given, as many as its format
has. -/
theorem Mnemonic.instr_operandBytes (k : Mnemonic) (a b : Byte) :
    (k.instr a b).operandBytes = [a, b].take k.operandCount := by
  cases k <;> rfl

/-- An instruction is its mnemonic with its own operand bytes. -/
theorem Instr.instr_eq (i : Instr) :
    i.mnemonic.instr (i.operandBytes.getD 0 0) (i.operandBytes.getD 1 0) = i := by
  cases i <;> rfl

end Sys2Proof
end

