-- ==== Sys2Proof/Laws/State.lean ====
section
/-! SUPPORT. One lemma per field per update of State, and what a register read or a byte read gives after each
update, so that no proof unfolds a record update. -/

namespace Sys2Proof.Machine

variable (s : State)

/-! ### setReg -/

@[simp] theorem State.setReg_regs (i : RegIdx) (v : Byte) : (s.setReg i v).regs = s.regs.set i v := rfl
@[simp] theorem State.setReg_sp (i : RegIdx) (v : Byte) : (s.setReg i v).sp = s.sp := rfl
@[simp] theorem State.setReg_pc (i : RegIdx) (v : Byte) : (s.setReg i v).pc = s.pc := rfl
@[simp] theorem State.setReg_fl (i : RegIdx) (v : Byte) : (s.setReg i v).fl = s.fl := rfl
@[simp] theorem State.setReg_mem (i : RegIdx) (v : Byte) : (s.setReg i v).mem = s.mem := rfl
@[simp] theorem State.setReg_run (i : RegIdx) (v : Byte) : (s.setReg i v).run = s.run := rfl
@[simp] theorem State.setReg_out (i : RegIdx) (v : Byte) : (s.setReg i v).out = s.out := rfl
@[simp] theorem State.setReg_byteAt (i : RegIdx) (v : Byte) (n : Nat) : (s.setReg i v).byteAt n = s.byteAt n := rfl

/-! ### setSp -/

@[simp] theorem State.setSp_regs (v : Byte) : (s.setSp v).regs = s.regs := rfl
@[simp] theorem State.setSp_sp (v : Byte) : (s.setSp v).sp = v := rfl
@[simp] theorem State.setSp_pc (v : Byte) : (s.setSp v).pc = s.pc := rfl
@[simp] theorem State.setSp_fl (v : Byte) : (s.setSp v).fl = s.fl := rfl
@[simp] theorem State.setSp_mem (v : Byte) : (s.setSp v).mem = s.mem := rfl
@[simp] theorem State.setSp_run (v : Byte) : (s.setSp v).run = s.run := rfl
@[simp] theorem State.setSp_out (v : Byte) : (s.setSp v).out = s.out := rfl
@[simp] theorem State.setSp_reg (v : Byte) (j : RegIdx) : (s.setSp v).reg j = s.reg j := rfl
@[simp] theorem State.setSp_byteAt (v : Byte) (n : Nat) : (s.setSp v).byteAt n = s.byteAt n := rfl

/-! ### setPc -/

@[simp] theorem State.setPc_regs (v : Byte) : (s.setPc v).regs = s.regs := rfl
@[simp] theorem State.setPc_sp (v : Byte) : (s.setPc v).sp = s.sp := rfl
@[simp] theorem State.setPc_pc (v : Byte) : (s.setPc v).pc = v := rfl
@[simp] theorem State.setPc_fl (v : Byte) : (s.setPc v).fl = s.fl := rfl
@[simp] theorem State.setPc_mem (v : Byte) : (s.setPc v).mem = s.mem := rfl
@[simp] theorem State.setPc_run (v : Byte) : (s.setPc v).run = s.run := rfl
@[simp] theorem State.setPc_out (v : Byte) : (s.setPc v).out = s.out := rfl
@[simp] theorem State.setPc_reg (v : Byte) (j : RegIdx) : (s.setPc v).reg j = s.reg j := rfl
@[simp] theorem State.setPc_byteAt (v : Byte) (n : Nat) : (s.setPc v).byteAt n = s.byteAt n := rfl

/-! ### setFlags -/

@[simp] theorem State.setFlags_regs (f : Flags) : (s.setFlags f).regs = s.regs := rfl
@[simp] theorem State.setFlags_sp (f : Flags) : (s.setFlags f).sp = s.sp := rfl
@[simp] theorem State.setFlags_pc (f : Flags) : (s.setFlags f).pc = s.pc := rfl
@[simp] theorem State.setFlags_fl (f : Flags) : (s.setFlags f).fl = f := rfl
@[simp] theorem State.setFlags_mem (f : Flags) : (s.setFlags f).mem = s.mem := rfl
@[simp] theorem State.setFlags_run (f : Flags) : (s.setFlags f).run = s.run := rfl
@[simp] theorem State.setFlags_out (f : Flags) : (s.setFlags f).out = s.out := rfl
@[simp] theorem State.setFlags_reg (f : Flags) (j : RegIdx) : (s.setFlags f).reg j = s.reg j := rfl
@[simp] theorem State.setFlags_byteAt (f : Flags) (n : Nat) : (s.setFlags f).byteAt n = s.byteAt n := rfl

/-! ### memWrite -/

@[simp] theorem State.memWrite_regs (a v : Byte) : (s.memWrite a v).regs = s.regs := rfl
@[simp] theorem State.memWrite_sp (a v : Byte) : (s.memWrite a v).sp = s.sp := rfl
@[simp] theorem State.memWrite_pc (a v : Byte) : (s.memWrite a v).pc = s.pc := rfl
@[simp] theorem State.memWrite_fl (a v : Byte) : (s.memWrite a v).fl = s.fl := rfl
@[simp] theorem State.memWrite_mem (a v : Byte) : (s.memWrite a v).mem = Memory.set s.mem a.toNat v := rfl
@[simp] theorem State.memWrite_run (a v : Byte) : (s.memWrite a v).run = s.run := rfl
@[simp] theorem State.memWrite_out (a v : Byte) : (s.memWrite a v).out = s.out := rfl
@[simp] theorem State.memWrite_reg (a v : Byte) (j : RegIdx) : (s.memWrite a v).reg j = s.reg j := rfl

/-! ### emit -/

@[simp] theorem State.emit_regs (v : Byte) : (s.emit v).regs = s.regs := rfl
@[simp] theorem State.emit_sp (v : Byte) : (s.emit v).sp = s.sp := rfl
@[simp] theorem State.emit_pc (v : Byte) : (s.emit v).pc = s.pc := rfl
@[simp] theorem State.emit_fl (v : Byte) : (s.emit v).fl = s.fl := rfl
@[simp] theorem State.emit_mem (v : Byte) : (s.emit v).mem = s.mem := rfl
@[simp] theorem State.emit_run (v : Byte) : (s.emit v).run = s.run := rfl
@[simp] theorem State.emit_out (v : Byte) : (s.emit v).out = s.out ++ [v] := rfl
@[simp] theorem State.emit_reg (v : Byte) (j : RegIdx) : (s.emit v).reg j = s.reg j := rfl
@[simp] theorem State.emit_byteAt (v : Byte) (n : Nat) : (s.emit v).byteAt n = s.byteAt n := rfl

/-! ### setRun -/

@[simp] theorem State.setRun_regs (r : RunState) : (s.setRun r).regs = s.regs := rfl
@[simp] theorem State.setRun_sp (r : RunState) : (s.setRun r).sp = s.sp := rfl
@[simp] theorem State.setRun_pc (r : RunState) : (s.setRun r).pc = s.pc := rfl
@[simp] theorem State.setRun_fl (r : RunState) : (s.setRun r).fl = s.fl := rfl
@[simp] theorem State.setRun_mem (r : RunState) : (s.setRun r).mem = s.mem := rfl
@[simp] theorem State.setRun_run (r : RunState) : (s.setRun r).run = r := rfl
@[simp] theorem State.setRun_out (r : RunState) : (s.setRun r).out = s.out := rfl
@[simp] theorem State.setRun_reg (r : RunState) (j : RegIdx) : (s.setRun r).reg j = s.reg j := rfl
@[simp] theorem State.setRun_byteAt (r : RunState) (n : Nat) : (s.setRun r).byteAt n = s.byteAt n := rfl

/-! ### raise -/

@[simp] theorem State.raise_regs (c : Cause) : (s.raise c).regs = s.regs := rfl
@[simp] theorem State.raise_sp (c : Cause) : (s.raise c).sp = s.sp := rfl
@[simp] theorem State.raise_pc (c : Cause) : (s.raise c).pc = s.pc := rfl
@[simp] theorem State.raise_fl (c : Cause) : (s.raise c).fl = s.fl := rfl
@[simp] theorem State.raise_mem (c : Cause) : (s.raise c).mem = s.mem := rfl
@[simp] theorem State.raise_run (c : Cause) : (s.raise c).run = .faulted c s.pc s.opcodeByte := rfl
@[simp] theorem State.raise_out (c : Cause) : (s.raise c).out = s.out := rfl
@[simp] theorem State.raise_reg (c : Cause) (j : RegIdx) : (s.raise c).reg j = s.reg j := rfl
@[simp] theorem State.raise_byteAt (c : Cause) (n : Nat) : (s.raise c).byteAt n = s.byteAt n := rfl

/-! ### Reading what was written -/

@[simp] theorem State.setReg_reg_self (i : RegIdx) (v : Byte) : (s.setReg i v).reg i = v := by
  simp [State.setReg, State.reg]

theorem State.setReg_reg_of_ne {i j : RegIdx} (v : Byte) (h : j ≠ i) : (s.setReg i v).reg j = s.reg j := by
  simp only [State.setReg, State.reg, Fin.getElem_fin]
  exact Vector.getElem_set_ne _ _ fun e => h (Fin.ext e.symm)

theorem State.setReg_reg (i j : RegIdx) (v : Byte) :
    (s.setReg i v).reg j = if j = i then v else s.reg j := by
  split
  · next h => rw [h, State.setReg_reg_self]
  · next h => exact State.setReg_reg_of_ne s v h

theorem State.memWrite_byteAt (a v : Byte) (n : Nat) :
    (s.memWrite a v).byteAt n = Memory.get (Memory.set s.mem a.toNat v) n := rfl

theorem State.byteAt_eq_get (n : Nat) : Memory.get s.mem n = s.byteAt n := rfl
@[simp] theorem State.setRun_opcodeByte (r : RunState) : (s.setRun r).opcodeByte = s.opcodeByte := rfl
@[simp] theorem State.raise_opcodeByte (c : Cause) : (s.raise c).opcodeByte = s.opcodeByte := rfl

/-- Raising changes `run` and nothing else (R117). -/
theorem State.raise_eq (c : Cause) : s.raise c = { s with run := .faulted c s.pc s.opcodeByte } := rfl

end Sys2Proof.Machine
end

