-- ==== Sys2Proof/Laws/Memory.lean ====
section
/-! SUPPORT. Memory: a read after a write, every other cell unchanged, and the canonical form kept by every
memory operation. -/

namespace Sys2Proof.Machine

theorem Memory.wfFrom_mono {lo lo' : Nat} (h : lo' ≤ lo) :
    ∀ {m : Memory}, Memory.wfFrom lo m = true → Memory.wfFrom lo' m = true
  | [], _ => rfl
  | (k, v) :: m, hw => by
    simp only [Memory.wfFrom, Bool.and_eq_true, decide_eq_true_eq] at hw ⊢
    exact ⟨⟨⟨by omega, hw.1.1.2⟩, hw.1.2⟩, hw.2⟩

/-- Below the first address of a canonical list nothing is listed. -/
theorem Memory.get_of_lt {lo a : Nat} (ha : a < lo) :
    ∀ {m : Memory}, Memory.wfFrom lo m = true → Memory.get m a = unlisted
  | [], _ => rfl
  | (k, v) :: m, hw => by
    simp only [Memory.wfFrom, Bool.and_eq_true, decide_eq_true_eq] at hw
    have hk : k ≠ a := by omega
    simp only [Memory.get, if_neg hk]
    exact Memory.get_of_lt (lo := k + 1) (by omega) hw.2

/-- A write leaves every other cell alone. -/
theorem Memory.get_set_of_ne {a b : Nat} (h : b ≠ a) (v : Byte) :
    ∀ m : Memory, Memory.get (Memory.set m a v) b = Memory.get m b
  | [] => by
    unfold Memory.set
    split <;> simp [Memory.get, Ne.symm h]
  | (k, w) :: m => by
    have ih := Memory.get_set_of_ne h v m
    unfold Memory.set
    split
    · split <;> simp [Memory.get, Ne.symm h]
    · split
      · next hk => split <;> simp [Memory.get, Ne.symm h, hk ▸ Ne.symm h]
      · simp [Memory.get, ih]

theorem Memory.get_set_self_from {a : Nat} (v : Byte) :
    ∀ {lo : Nat} {m : Memory}, Memory.wfFrom lo m = true → Memory.get (Memory.set m a v) a = v
  | _, [], _ => by
    unfold Memory.set
    split
    · next hv => simp [Memory.get, hv]
    · simp [Memory.get]
  | lo, (k, w) :: m, hw => by
    simp only [Memory.wfFrom, Bool.and_eq_true, decide_eq_true_eq] at hw
    unfold Memory.set
    split
    · next hlt =>
      split
      · next hv =>
        have hk : k ≠ a := by omega
        simp only [Memory.get, if_neg hk, hv]
        exact Memory.get_of_lt (lo := k + 1) (by omega) hw.2
      · simp [Memory.get]
    · split
      · next hk =>
        split
        · next hv => rw [hv]; exact Memory.get_of_lt (lo := k + 1) (by omega) hw.2
        · simp [Memory.get]
      · next hk =>
        simp only [Memory.get, if_neg (Ne.symm hk)]
        exact Memory.get_set_self_from v hw.2

/-- A read after a write to the same cell gives the value written. -/
theorem Memory.get_set_self {m : Memory} (h : Memory.wf m = true) (a : Nat) (v : Byte) :
    Memory.get (Memory.set m a v) a = v :=
  Memory.get_set_self_from v h

theorem Memory.get_set {m : Memory} (h : Memory.wf m = true) (a b : Nat) (v : Byte) :
    Memory.get (Memory.set m a v) b = if b = a then v else Memory.get m b := by
  split
  · next hb => rw [hb, Memory.get_set_self h]
  · next hb => exact Memory.get_set_of_ne hb v m

theorem Memory.wfFrom_set {a : Nat} (ha : a < Config.memSize) (v : Byte) :
    ∀ {lo : Nat} {m : Memory}, lo ≤ a → Memory.wfFrom lo m = true → Memory.wfFrom lo (Memory.set m a v) = true
  | lo, [], hlo, _ => by
    unfold Memory.set
    split
    · rfl
    · next hv =>
      simp only [Memory.wfFrom, Bool.and_eq_true, decide_eq_true_eq]
      exact ⟨⟨⟨hlo, ha⟩, hv⟩, trivial⟩
  | lo, (k, w) :: m, hlo, hw => by
    have hw' := hw
    simp only [Memory.wfFrom, Bool.and_eq_true, decide_eq_true_eq] at hw'
    obtain ⟨⟨⟨h1, h2⟩, h3⟩, h4⟩ := hw'
    unfold Memory.set
    split
    · next hlt =>
      split
      · exact hw
      · next hv =>
        simp only [Memory.wfFrom, Bool.and_eq_true, decide_eq_true_eq]
        exact ⟨⟨⟨hlo, ha⟩, hv⟩, ⟨⟨hlt, h2⟩, h3⟩, h4⟩
    · split
      · next hk =>
        split
        · exact Memory.wfFrom_mono (by omega) h4
        · next hv =>
          simp only [Memory.wfFrom, Bool.and_eq_true, decide_eq_true_eq]
          exact ⟨⟨⟨hlo, ha⟩, hv⟩, hk ▸ h4⟩
      · simp only [Memory.wfFrom, Bool.and_eq_true, decide_eq_true_eq]
        exact ⟨⟨⟨h1, h2⟩, h3⟩, Memory.wfFrom_set ha v (by omega) h4⟩

/-- A write below 256 keeps the canonical form. -/
theorem Memory.wf_set {m : Memory} (h : Memory.wf m = true) {a : Nat} (ha : a < Config.memSize) (v : Byte) :
    Memory.wf (Memory.set m a v) = true :=
  Memory.wfFrom_set ha v (Nat.zero_le a) h

/-- Storing a list of bytes keeps the canonical form. -/
theorem Memory.wf_store : ∀ (bs : List Byte) {m : Memory} (a : Nat), Memory.wf m = true →
    Memory.wf (Memory.store m a bs) = true
  | [], _, _, h => h
  | b :: bs, m, a, h => by
    unfold Memory.store
    split
    · next ha => exact Memory.wf_store bs (a + 1) (Memory.wf_set h ha b)
    · exact h

/-- Storing from `a` on leaves every cell outside the stored range alone. -/
theorem Memory.get_store_of_outside : ∀ (bs : List Byte) (m : Memory) (a n : Nat),
    n < a ∨ a + bs.length ≤ n → Memory.get (Memory.store m a bs) n = Memory.get m n
  | [], _, _, _, _ => rfl
  | b :: bs, m, a, n, h => by
    simp only [List.length_cons] at h
    unfold Memory.store
    split
    · rw [Memory.get_store_of_outside bs _ (a + 1) n (by omega)]
      exact Memory.get_set_of_ne (by omega) b m
    · rfl

/-- Byte `k` of a stored list lies at address `a + k`. -/
theorem Memory.get_store_inside : ∀ (bs : List Byte) {m : Memory} (a k : Nat), Memory.wf m = true →
    a + bs.length ≤ Config.memSize → k < bs.length → Memory.get (Memory.store m a bs) (a + k) = bs.getD k 0
  | [], _, _, _, _, _, hk => absurd hk (Nat.not_lt_zero _)
  | b :: bs, m, a, k, h, hfit, hk => by
    simp only [List.length_cons] at hfit hk
    have ha : a < Config.memSize := by omega
    unfold Memory.store
    rw [if_pos ha]
    cases k with
    | zero =>
      rw [Memory.get_store_of_outside bs _ (a + 1) (a + 0) (by omega)]
      simpa using Memory.get_set_self h a b
    | succ k =>
      have := Memory.get_store_inside bs (a + 1) k (Memory.wf_set h ha b) (by omega) (by omega)
      rw [show a + (k + 1) = a + 1 + k by omega, this]
      rfl

/-- Reset memory is in canonical form. -/
theorem State.reset_mem_wf : Memory.wf State.reset.mem = true := rfl

/-- Reset memory reads as zero everywhere (R27). -/
theorem State.reset_byteAt (a : Nat) : State.reset.byteAt a = 0 := rfl

/-- A one-byte write as a state sees it. -/
theorem State.memWrite_byteAt_eq {s : State} (h : Memory.wf s.mem = true) (a v : Byte) (n : Nat) :
    (s.memWrite a v).byteAt n = if n = a.toNat then v else s.byteAt n :=
  Memory.get_set h a.toNat n v

theorem State.memWrite_byteAt_of_ne (s : State) {a : Byte} (v : Byte) {n : Nat} (h : n ≠ a.toNat) :
    (s.memWrite a v).byteAt n = s.byteAt n :=
  Memory.get_set_of_ne h v s.mem

/-- A write at a byte address keeps the canonical form. -/
theorem State.memWrite_wf {s : State} (h : Memory.wf s.mem = true) (a v : Byte) :
    Memory.wf (s.memWrite a v).mem = true :=
  Memory.wf_set h a.isLt v

end Sys2Proof.Machine
end

