-- ==== Sys2Proof/Laws/Ops.lean ====
section
/-! SUPPORT. One lemma per shared operation of the compute phase: exactly when it answers a value, and which. -/

namespace Sys2Proof.Machine

@[simp] theorem compute_ok_bind {α β : Type} (a : α) (f : α → Compute β) : (Except.ok a >>= f) = f a := rfl

@[simp] theorem compute_error_bind {α β : Type} (d : Oob) (f : α → Compute β) :
    (Except.error d >>= f) = (Except.error d : Compute β) := rfl

/-- A sequence of computations answers a value exactly when each part does. -/
theorem compute_bind_eq_ok {α β : Type} {x : Compute α} {f : α → Compute β} {b : β} :
    (x >>= f) = .ok b ↔ ∃ a, x = .ok a ∧ f a = .ok b := by
  cases x with
  | ok a => simp
  | error d => simp

/-- A conditional computation. -/
theorem compute_pure_eq_ok {α : Type} {a b : α} : (pure a : Compute α) = .ok b ↔ b = a := by
  simp [pure, Except.pure, eq_comm]

/-- A computation that answers no value raises. -/
theorem compute_error_of_not_ok {α : Type} {c : Compute α} (h : ∀ a, c ≠ .ok a) : ∃ d, c = .error d := by
  cases c with
  | ok a => exact absurd rfl (h a)
  | error d => exact ⟨d, rfl⟩

/-- `Addr` answers the address itself, and exactly when it is one (R17, R31). -/
theorem addr_eq_ok {d : Oob} {a : Int} {b : Byte} : addr d a = .ok b ↔ (b.toNat : Int) = a := by
  unfold addr
  split
  · next h =>
    obtain ⟨n, rfl⟩ := Int.eq_ofNat_of_zero_le h.1
    have hn : n < 256 := by have := h.2; simp only [Config.memSize] at this; omega
    rw [Except.ok.injEq, ← BitVec.toNat_inj, BitVec.ofInt_natCast, BitVec.toNat_ofNat, Nat.mod_eq_of_lt hn]
    omega
  · next h =>
    have := b.isLt
    simp only [Config.memSize] at h
    simp only [reduceCtorEq, false_iff]
    omega

/-- `Addr` answers on every natural number below 256. -/
theorem addr_of_lt (d : Oob) {n : Nat} (h : n < 256) : ∃ b : Byte, addr d n = .ok b ∧ b.toNat = n :=
  ⟨BitVec.ofNat 8 n, addr_eq_ok.2 (by simp [Nat.mod_eq_of_lt h]), by simp [Nat.mod_eq_of_lt h]⟩

/-- `MemRead` at a byte address never raises (R112). -/
@[simp] theorem memRead_toNat (s : State) (d : Oob) (b : Byte) :
    memRead s d b.toNat = .ok (s.byteAt b.toNat) := by
  have h : addr d b.toNat = .ok b := addr_eq_ok.2 rfl
  simp only [memRead, h, compute_ok_bind]
  rfl

/-- `Reg` answers the byte as an index, exactly when it is 0..7 (R11). -/
theorem regIndex_eq_ok {b : Byte} {r : RegIdx} : regIndex b = .ok r ↔ b.toNat = r.val := by
  unfold regIndex
  split
  · next h => rw [Except.ok.injEq, Fin.ext_iff]
  · next h =>
    have := r.isLt
    simp only [reduceCtorEq, false_iff]
    omega

variable {s : State}

theorem operandByte_eq_ok {k : Nat} {b v : Byte} :
    operandByte s k b = .ok v ↔ v = b ∧ s.pc.toNat + k < 256 := by
  simp only [operandByte, compute_bind_eq_ok, compute_pure_eq_ok, addr_eq_ok]
  constructor
  · rintro ⟨a, ha, rfl⟩
    have := a.isLt
    exact ⟨rfl, by omega⟩
  · rintro ⟨rfl, h⟩
    exact ⟨BitVec.ofNat 8 (s.pc.toNat + k), by simp [Nat.mod_eq_of_lt h], rfl⟩

theorem regOperand_eq_ok {k : Nat} {b : Byte} {r : RegIdx} :
    regOperand s k b = .ok r ↔ b.toNat = r.val ∧ s.pc.toNat + k < 256 := by
  simp only [regOperand, compute_bind_eq_ok, operandByte_eq_ok, regIndex_eq_ok]
  constructor
  · rintro ⟨_, ⟨rfl, h⟩, hr⟩
    exact ⟨hr, h⟩
  · rintro ⟨hr, h⟩
    exact ⟨b, ⟨rfl, h⟩, hr⟩

theorem nextPc_eq_ok {len : Nat} {npc : Byte} : nextPc s len = .ok npc ↔ npc.toNat = s.pc.toNat + len := by
  simp only [nextPc, addr_eq_ok]
  omega

theorem returnAddress_eq_ok {ret : Byte} : returnAddress s = .ok ret ↔ ret.toNat = s.pc.toNat + 2 := by
  simp only [returnAddress, addr_eq_ok]
  omega

theorem pushSlot_eq_ok {nsp : Byte} : pushSlot s = .ok nsp ↔ nsp.toNat + 1 = s.sp.toNat := by
  simp only [pushSlot, addr_eq_ok]
  omega

@[simp] theorem popByte_eq : popByte s = .ok (s.byteAt s.sp.toNat) := memRead_toNat s _ s.sp

theorem poppedSp_eq_ok {nsp : Byte} : poppedSp s = .ok nsp ↔ nsp.toNat = s.sp.toNat + 1 := by
  simp only [poppedSp, addr_eq_ok]
  omega

/-- The end of an instruction rule has two cases: the committed state, or the old one with `OutOfBounds`
raised. -/
theorem conclude_eq_next {c : Compute State} {t : State} :
    conclude s c = .next t ↔ c = .ok t ∨ (∃ d, c = .error d) ∧ t = s.raise .outOfBounds := by
  cases c with
  | ok u => simp [conclude]
  | error d => simp [conclude, eq_comm]

@[simp] theorem conclude_ok (t : State) : conclude s (.ok t) = .next t := rfl

@[simp] theorem conclude_error (d : Oob) : conclude s (.error d) = .next (s.raise .outOfBounds) := rfl

/-- An instruction rule always answers a next state (R78). -/
theorem conclude_total (s : State) (c : Compute State) : ∃ t, conclude s c = .next t := by
  cases c with
  | ok t => exact ⟨t, rfl⟩
  | error d => exact ⟨_, rfl⟩

end Sys2Proof.Machine
end

