-- ==== Sys2Proof/Laws/Exec.lean ====
section
/-! SUPPORT. For the compute phase of every instruction: exactly when it raises nothing, and the state it then
commits. Later proofs cite these and unfold no rule again. -/

namespace Sys2Proof.Machine

variable {s t : State}

theorem computeLdi_eq_ok {reg imm8 : Byte} :
    computeLdi reg imm8 s = .ok t ↔ ∃ (r : RegIdx) (npc : Byte), reg.toNat = r.val ∧
      npc.toNat = s.pc.toNat + 3 ∧ t = (s.setReg r imm8).setPc npc := by
  simp only [computeLdi, compute_bind_eq_ok, compute_pure_eq_ok, regOperand_eq_ok, operandByte_eq_ok, nextPc_eq_ok]
  constructor
  · rintro ⟨r, ⟨hr, _⟩, _, ⟨rfl, _⟩, npc, hn, rfl⟩
    exact ⟨r, npc, hr, hn, rfl⟩
  · rintro ⟨r, npc, hr, hn, rfl⟩
    have := npc.isLt
    exact ⟨r, ⟨hr, by omega⟩, imm8, ⟨rfl, by omega⟩, npc, hn, rfl⟩

theorem computePrn_eq_ok {reg : Byte} :
    computePrn reg s = .ok t ↔ ∃ (r : RegIdx) (npc : Byte), reg.toNat = r.val ∧
      npc.toNat = s.pc.toNat + 2 ∧ t = (s.emit (s.reg r)).setPc npc := by
  simp only [computePrn, compute_bind_eq_ok, compute_pure_eq_ok, regOperand_eq_ok, nextPc_eq_ok]
  constructor
  · rintro ⟨r, ⟨hr, _⟩, npc, hn, rfl⟩
    exact ⟨r, npc, hr, hn, rfl⟩
  · rintro ⟨r, npc, hr, hn, rfl⟩
    have := npc.isLt
    exact ⟨r, ⟨hr, by omega⟩, npc, hn, rfl⟩

theorem computeAlu_eq_ok {op : AluOp} {regA regB : Byte} :
    computeAlu op regA regB s = .ok t ↔ ∃ (a b : RegIdx) (npc : Byte), regA.toNat = a.val ∧
      regB.toNat = b.val ∧ npc.toNat = s.pc.toNat + 3 ∧ t = (alu op a b s).setPc npc := by
  simp only [computeAlu, compute_bind_eq_ok, compute_pure_eq_ok, regOperand_eq_ok, nextPc_eq_ok]
  constructor
  · rintro ⟨a, ⟨ha, _⟩, b, ⟨hb, _⟩, npc, hn, rfl⟩
    exact ⟨a, b, npc, ha, hb, hn, rfl⟩
  · rintro ⟨a, b, npc, ha, hb, hn, rfl⟩
    have := npc.isLt
    exact ⟨a, ⟨ha, by omega⟩, b, ⟨hb, by omega⟩, npc, hn, rfl⟩

theorem computePush_eq_ok {reg : Byte} :
    computePush reg s = .ok t ↔ ∃ (r : RegIdx) (nsp npc : Byte), reg.toNat = r.val ∧
      nsp.toNat + 1 = s.sp.toNat ∧ npc.toNat = s.pc.toNat + 2 ∧
      t = ((s.memWrite nsp (s.reg r)).setSp nsp).setPc npc := by
  simp only [computePush, compute_bind_eq_ok, compute_pure_eq_ok, regOperand_eq_ok, nextPc_eq_ok, pushSlot_eq_ok]
  constructor
  · rintro ⟨r, ⟨hr, _⟩, nsp, hs, npc, hn, rfl⟩
    exact ⟨r, nsp, npc, hr, hs, hn, rfl⟩
  · rintro ⟨r, nsp, npc, hr, hs, hn, rfl⟩
    have := npc.isLt
    exact ⟨r, ⟨hr, by omega⟩, nsp, hs, npc, hn, rfl⟩

theorem computePop_eq_ok {reg : Byte} :
    computePop reg s = .ok t ↔ ∃ (r : RegIdx) (nsp npc : Byte), reg.toNat = r.val ∧
      nsp.toNat = s.sp.toNat + 1 ∧ npc.toNat = s.pc.toNat + 2 ∧
      t = ((s.setReg r (s.byteAt s.sp.toNat)).setSp nsp).setPc npc := by
  simp only [computePop, compute_bind_eq_ok, compute_pure_eq_ok, regOperand_eq_ok, nextPc_eq_ok, poppedSp_eq_ok,
    popByte_eq]
  constructor
  · rintro ⟨r, ⟨hr, _⟩, v, hv, nsp, hs, npc, hn, rfl⟩
    cases hv
    exact ⟨r, nsp, npc, hr, hs, hn, rfl⟩
  · rintro ⟨r, nsp, npc, hr, hs, hn, rfl⟩
    have := npc.isLt
    exact ⟨r, ⟨hr, by omega⟩, _, rfl, nsp, hs, npc, hn, rfl⟩

theorem computeCall_eq_ok {reg : Byte} :
    computeCall reg s = .ok t ↔ ∃ (r : RegIdx) (ret nsp : Byte), reg.toNat = r.val ∧
      ret.toNat = s.pc.toNat + 2 ∧ nsp.toNat + 1 = s.sp.toNat ∧
      t = ((s.memWrite nsp ret).setSp nsp).setPc (s.reg r) := by
  simp only [computeCall, compute_bind_eq_ok, compute_pure_eq_ok, regOperand_eq_ok, returnAddress_eq_ok,
    pushSlot_eq_ok]
  constructor
  · rintro ⟨r, ⟨hr, _⟩, ret, hn, nsp, hs, rfl⟩
    exact ⟨r, ret, nsp, hr, hn, hs, rfl⟩
  · rintro ⟨r, ret, nsp, hr, hn, hs, rfl⟩
    have := ret.isLt
    exact ⟨r, ⟨hr, by omega⟩, ret, hn, nsp, hs, rfl⟩

theorem computeRet_eq_ok :
    computeRet s = .ok t ↔ ∃ nsp : Byte, nsp.toNat = s.sp.toNat + 1 ∧
      t = (s.setPc (s.byteAt s.sp.toNat)).setSp nsp := by
  simp only [computeRet, compute_bind_eq_ok, compute_pure_eq_ok, poppedSp_eq_ok, popByte_eq]
  constructor
  · rintro ⟨v, hv, nsp, hs, rfl⟩
    cases hv
    exact ⟨nsp, hs, rfl⟩
  · rintro ⟨nsp, hs, rfl⟩
    exact ⟨_, rfl, nsp, hs, rfl⟩

theorem computeJmp_eq_ok {reg : Byte} :
    computeJmp reg s = .ok t ↔ ∃ r : RegIdx, reg.toNat = r.val ∧ s.pc.toNat + 1 < 256 ∧ t = s.setPc (s.reg r) := by
  simp only [computeJmp, compute_bind_eq_ok, compute_pure_eq_ok, regOperand_eq_ok]
  constructor
  · rintro ⟨r, ⟨hr, hp⟩, rfl⟩
    exact ⟨r, hr, hp, rfl⟩
  · rintro ⟨r, hr, hp, rfl⟩
    exact ⟨r, ⟨hr, hp⟩, rfl⟩

theorem computeBranch_eq_ok {taken : Bool} {reg : Byte} :
    computeBranch taken reg s = .ok t ↔ ∃ (r : RegIdx) (npc : Byte), reg.toNat = r.val ∧
      s.pc.toNat + 1 < 256 ∧ (if taken then npc = s.reg r else npc.toNat = s.pc.toNat + 2) ∧ t = s.setPc npc := by
  cases taken <;>
    simp only [computeBranch, compute_bind_eq_ok, compute_pure_eq_ok, regOperand_eq_ok, nextPc_eq_ok,
      Bool.false_eq_true, if_false, if_true]
  all_goals
    constructor
    · rintro ⟨r, ⟨hr, hp⟩, npc, hn, rfl⟩
      exact ⟨r, npc, hr, hp, hn, rfl⟩
    · rintro ⟨r, npc, hr, hp, hn, rfl⟩
      exact ⟨r, ⟨hr, hp⟩, npc, hn, rfl⟩

theorem Flags.equal_eq (f : Flags) : f.equal = f.e := rfl
theorem Flags.notEqual_eq (f : Flags) : f.notEqual = !f.e := rfl

/-! ### Every instruction as the end of its compute phase -/

@[simp] theorem exec_hlt (s : State) : exec .hlt s = .next (s.setRun .halted) := rfl
@[simp] theorem exec_ldi (reg imm8 : Byte) (s : State) :
    exec (.ldi reg imm8) s = conclude s (computeLdi reg imm8 s) := rfl
@[simp] theorem exec_prn (reg : Byte) (s : State) : exec (.prn reg) s = conclude s (computePrn reg s) := rfl
@[simp] theorem exec_mul (a b : Byte) (s : State) : exec (.mul a b) s = conclude s (computeAlu .mul a b s) := rfl
@[simp] theorem exec_add (a b : Byte) (s : State) : exec (.add a b) s = conclude s (computeAlu .add a b s) := rfl
@[simp] theorem exec_cmp (a b : Byte) (s : State) : exec (.cmp a b) s = conclude s (computeAlu .cmp a b s) := rfl
@[simp] theorem exec_push (reg : Byte) (s : State) : exec (.push reg) s = conclude s (computePush reg s) := rfl
@[simp] theorem exec_pop (reg : Byte) (s : State) : exec (.pop reg) s = conclude s (computePop reg s) := rfl
@[simp] theorem exec_call (reg : Byte) (s : State) : exec (.call reg) s = conclude s (computeCall reg s) := rfl
@[simp] theorem exec_ret (s : State) : exec .ret s = conclude s (computeRet s) := rfl
@[simp] theorem exec_jmp (reg : Byte) (s : State) : exec (.jmp reg) s = conclude s (computeJmp reg s) := rfl
@[simp] theorem exec_jeq (reg : Byte) (s : State) :
    exec (.jeq reg) s = conclude s (computeBranch s.fl.equal reg s) := rfl
@[simp] theorem exec_jne (reg : Byte) (s : State) :
    exec (.jne reg) s = conclude s (computeBranch s.fl.notEqual reg s) := rfl

/-! ### What an instruction can do -/

/-- The state an instruction commits when it raises nothing. -/
inductive Commits (s : State) : Instr → State → Prop where
  | hlt : Commits s .hlt (s.setRun .halted)
  | ldi {reg v : Byte} (r : RegIdx) (npc : Byte) : reg.toNat = r.val → npc.toNat = s.pc.toNat + 3 →
      Commits s (.ldi reg v) ((s.setReg r v).setPc npc)
  | prn {reg : Byte} (r : RegIdx) (npc : Byte) : reg.toNat = r.val → npc.toNat = s.pc.toNat + 2 →
      Commits s (.prn reg) ((s.emit (s.reg r)).setPc npc)
  | mul {x y : Byte} (a b : RegIdx) (npc : Byte) : x.toNat = a.val → y.toNat = b.val →
      npc.toNat = s.pc.toNat + 3 →
      Commits s (.mul x y) ((s.setReg a (aluMul (s.reg a) (s.reg b))).setPc npc)
  | add {x y : Byte} (a b : RegIdx) (npc : Byte) : x.toNat = a.val → y.toNat = b.val →
      npc.toNat = s.pc.toNat + 3 →
      Commits s (.add x y) ((s.setReg a (aluAdd (s.reg a) (s.reg b))).setPc npc)
  | cmp {x y : Byte} (a b : RegIdx) (npc : Byte) : x.toNat = a.val → y.toNat = b.val →
      npc.toNat = s.pc.toNat + 3 →
      Commits s (.cmp x y) ((s.setFlags (compareFlags (s.reg a) (s.reg b))).setPc npc)
  | push {reg : Byte} (r : RegIdx) (nsp npc : Byte) : reg.toNat = r.val → nsp.toNat + 1 = s.sp.toNat →
      npc.toNat = s.pc.toNat + 2 →
      Commits s (.push reg) (((s.memWrite nsp (s.reg r)).setSp nsp).setPc npc)
  | pop {reg : Byte} (r : RegIdx) (nsp npc : Byte) : reg.toNat = r.val → nsp.toNat = s.sp.toNat + 1 →
      npc.toNat = s.pc.toNat + 2 →
      Commits s (.pop reg) (((s.setReg r (s.byteAt s.sp.toNat)).setSp nsp).setPc npc)
  | call {reg : Byte} (r : RegIdx) (ret nsp : Byte) : reg.toNat = r.val → ret.toNat = s.pc.toNat + 2 →
      nsp.toNat + 1 = s.sp.toNat →
      Commits s (.call reg) (((s.memWrite nsp ret).setSp nsp).setPc (s.reg r))
  | ret (nsp : Byte) : nsp.toNat = s.sp.toNat + 1 →
      Commits s .ret ((s.setPc (s.byteAt s.sp.toNat)).setSp nsp)
  | jmp {reg : Byte} (r : RegIdx) : reg.toNat = r.val → s.pc.toNat + 1 < 256 →
      Commits s (.jmp reg) (s.setPc (s.reg r))
  | jeq {reg : Byte} (r : RegIdx) (npc : Byte) : reg.toNat = r.val → s.pc.toNat + 1 < 256 →
      (if s.fl.equal then npc = s.reg r else npc.toNat = s.pc.toNat + 2) → Commits s (.jeq reg) (s.setPc npc)
  | jne {reg : Byte} (r : RegIdx) (npc : Byte) : reg.toNat = r.val → s.pc.toNat + 1 < 256 →
      (if s.fl.notEqual then npc = s.reg r else npc.toNat = s.pc.toNat + 2) → Commits s (.jne reg) (s.setPc npc)

/-- An instruction whose rule commits a state answers it. -/
theorem exec_of_commits {i : Instr} (h : Commits s i t) : exec i s = .next t := by
  cases h with
  | hlt => rfl
  | ldi r npc hr hn => rw [exec_ldi, computeLdi_eq_ok.2 ⟨r, npc, hr, hn, rfl⟩, conclude_ok]
  | prn r npc hr hn => rw [exec_prn, computePrn_eq_ok.2 ⟨r, npc, hr, hn, rfl⟩, conclude_ok]
  | mul a b npc ha hb hn => rw [exec_mul, computeAlu_eq_ok.2 ⟨a, b, npc, ha, hb, hn, rfl⟩, conclude_ok]; rfl
  | add a b npc ha hb hn => rw [exec_add, computeAlu_eq_ok.2 ⟨a, b, npc, ha, hb, hn, rfl⟩, conclude_ok]; rfl
  | cmp a b npc ha hb hn => rw [exec_cmp, computeAlu_eq_ok.2 ⟨a, b, npc, ha, hb, hn, rfl⟩, conclude_ok]; rfl
  | push r nsp npc hr hs hn => rw [exec_push, computePush_eq_ok.2 ⟨r, nsp, npc, hr, hs, hn, rfl⟩, conclude_ok]
  | pop r nsp npc hr hs hn => rw [exec_pop, computePop_eq_ok.2 ⟨r, nsp, npc, hr, hs, hn, rfl⟩, conclude_ok]
  | call r ret nsp hr hn hs => rw [exec_call, computeCall_eq_ok.2 ⟨r, ret, nsp, hr, hn, hs, rfl⟩, conclude_ok]
  | ret nsp hs => rw [exec_ret, computeRet_eq_ok.2 ⟨nsp, hs, rfl⟩, conclude_ok]
  | jmp r hr hp => rw [exec_jmp, computeJmp_eq_ok.2 ⟨r, hr, hp, rfl⟩, conclude_ok]
  | jeq r npc hr hp hn => rw [exec_jeq, computeBranch_eq_ok.2 ⟨r, npc, hr, hp, hn, rfl⟩, conclude_ok]
  | jne r npc hr hp hn => rw [exec_jne, computeBranch_eq_ok.2 ⟨r, npc, hr, hp, hn, rfl⟩, conclude_ok]

/-- Everything an instruction can do: commit, or raise `OutOfBounds` because its rule commits no state. -/
theorem exec_cases {i : Instr} (h : exec i s = .next t) :
    Commits s i t ∨ t = s.raise .outOfBounds ∧ ∀ u, ¬ Commits s i u := by
  by_cases hex : ∃ u, Commits s i u
  · obtain ⟨u, hu⟩ := hex
    have : u = t := by simpa [exec_of_commits hu] using h
    exact .inl (this ▸ hu)
  · have hno : ∀ u, ¬ Commits s i u := fun u hu => hex ⟨u, hu⟩
    refine .inr ⟨?_, hno⟩
    have raised : ∀ {c : Compute State}, conclude s c = .next t → (∀ u, c = .ok u → Commits s i u) →
        t = s.raise .outOfBounds := fun hc hu => by
      rcases conclude_eq_next.1 hc with hok | ⟨_, ht⟩
      · exact absurd (hu t hok) (hno t)
      · exact ht
    cases i with
    | hlt => exact absurd .hlt (hno _)
    | ldi reg v =>
      refine raised (exec_ldi reg v s ▸ h) fun u hu => ?_
      obtain ⟨r, npc, hr, hn, rfl⟩ := computeLdi_eq_ok.1 hu
      exact .ldi r npc hr hn
    | prn reg =>
      refine raised (exec_prn reg s ▸ h) fun u hu => ?_
      obtain ⟨r, npc, hr, hn, rfl⟩ := computePrn_eq_ok.1 hu
      exact .prn r npc hr hn
    | mul x y =>
      refine raised (exec_mul x y s ▸ h) fun u hu => ?_
      obtain ⟨a, b, npc, ha, hb, hn, rfl⟩ := computeAlu_eq_ok.1 hu
      exact .mul a b npc ha hb hn
    | add x y =>
      refine raised (exec_add x y s ▸ h) fun u hu => ?_
      obtain ⟨a, b, npc, ha, hb, hn, rfl⟩ := computeAlu_eq_ok.1 hu
      exact .add a b npc ha hb hn
    | cmp x y =>
      refine raised (exec_cmp x y s ▸ h) fun u hu => ?_
      obtain ⟨a, b, npc, ha, hb, hn, rfl⟩ := computeAlu_eq_ok.1 hu
      exact .cmp a b npc ha hb hn
    | push reg =>
      refine raised (exec_push reg s ▸ h) fun u hu => ?_
      obtain ⟨r, nsp, npc, hr, hs, hn, rfl⟩ := computePush_eq_ok.1 hu
      exact .push r nsp npc hr hs hn
    | pop reg =>
      refine raised (exec_pop reg s ▸ h) fun u hu => ?_
      obtain ⟨r, nsp, npc, hr, hs, hn, rfl⟩ := computePop_eq_ok.1 hu
      exact .pop r nsp npc hr hs hn
    | call reg =>
      refine raised (exec_call reg s ▸ h) fun u hu => ?_
      obtain ⟨r, ret, nsp, hr, hn, hs, rfl⟩ := computeCall_eq_ok.1 hu
      exact .call r ret nsp hr hn hs
    | ret =>
      refine raised (exec_ret s ▸ h) fun u hu => ?_
      obtain ⟨nsp, hs, rfl⟩ := computeRet_eq_ok.1 hu
      exact .ret nsp hs
    | jmp reg =>
      refine raised (exec_jmp reg s ▸ h) fun u hu => ?_
      obtain ⟨r, hr, hp, rfl⟩ := computeJmp_eq_ok.1 hu
      exact .jmp r hr hp
    | jeq reg =>
      refine raised (exec_jeq reg s ▸ h) fun u hu => ?_
      obtain ⟨r, npc, hr, hp, hn, rfl⟩ := computeBranch_eq_ok.1 hu
      exact .jeq r npc hr hp hn
    | jne reg =>
      refine raised (exec_jne reg s ▸ h) fun u hu => ?_
      obtain ⟨r, npc, hr, hp, hn, rfl⟩ := computeBranch_eq_ok.1 hu
      exact .jne r npc hr hp hn

/-- Every instruction but HLT is the conclusion of a compute phase, so it answers a next state in every state
(R78). -/
theorem exec_total (i : Instr) (s : State) : ∃ t, exec i s = .next t := by
  cases i with
  | hlt => exact ⟨_, rfl⟩
  | ldi reg imm8 => exact conclude_total s (computeLdi reg imm8 s)
  | prn reg => exact conclude_total s (computePrn reg s)
  | mul regA regB => exact conclude_total s (computeAlu .mul regA regB s)
  | add regA regB => exact conclude_total s (computeAlu .add regA regB s)
  | cmp regA regB => exact conclude_total s (computeAlu .cmp regA regB s)
  | push reg => exact conclude_total s (computePush reg s)
  | pop reg => exact conclude_total s (computePop reg s)
  | call reg => exact conclude_total s (computeCall reg s)
  | ret => exact conclude_total s (computeRet s)
  | jmp reg => exact conclude_total s (computeJmp reg s)
  | jeq reg => exact conclude_total s (computeBranch s.fl.equal reg s)
  | jne reg => exact conclude_total s (computeBranch s.fl.notEqual reg s)

/-- What the fetch unit answers: the instruction whose opcode is the byte at `pc`, with the bytes after it as
operands (R71). -/
theorem fetchWith_eq_some {opc : OpcodeMap} {i : Instr} :
    fetchWith opc s = some i ↔ ∃ k, decodeOpcode opc s.opcodeByte = some k ∧
      k.instr (s.byteAt (s.pc.toNat + 1)) (s.byteAt (s.pc.toNat + 2)) = i := by
  unfold fetchWith
  cases decodeOpcode opc s.opcodeByte <;> simp

/-- A step in `Running` is the body of the loop. -/
theorem stepWith_running (opc : OpcodeMap) (h : s.run = .running) : stepWith opc s = runOneWith opc s := by
  simp only [stepWith, h]

/-- Only `Running` has a step (R20). -/
theorem running_of_stepWith {opc : OpcodeMap} (h : stepWith opc s = .next t) : s.run = .running := by
  unfold stepWith at h
  split at h
  · assumption
  · cases h
  · cases h

/-- What a step can do: raise `IllegalInstruction` on a byte that is no opcode, or run the instruction whose
opcode it is, with the bytes after it as operands (R70). -/
theorem stepWith_cases {opc : OpcodeMap} (h : stepWith opc s = .next t) :
    s.run = .running ∧
      (decodeOpcode opc s.opcodeByte = none ∧ t = s.raise .illegalInstruction ∨
        ∃ k, decodeOpcode opc s.opcodeByte = some k ∧
          exec (k.instr (s.byteAt (s.pc.toNat + 1)) (s.byteAt (s.pc.toNat + 2))) s = .next t) := by
  have hr := running_of_stepWith h
  refine ⟨hr, ?_⟩
  rw [stepWith_running opc hr, runOneWith, fetchWith] at h
  cases hk : decodeOpcode opc s.opcodeByte with
  | none =>
    simp only [hk, Host.Outcome.next.injEq] at h
    exact .inl ⟨rfl, h.symm⟩
  | some k =>
    simp only [hk] at h
    exact .inr ⟨k, rfl, h⟩

end Sys2Proof.Machine
end

