-- ==== Sys2Proof/Laws/PerInstr.lean ====
section
/-! SUPPORT. Statements about every instruction as syntax, one lemma per constructor: the encoding of an
instruction is as long as the table of R50 says. -/

namespace Sys2Proof.Laws.EncodedLength

/-- The operand bytes of the instruction are as many as its format has, whatever the opcode map. -/
def Statement (i : Instr) : Prop := ∀ opc, (encodeWith opc i).length = i.mnemonic.length

theorem hlt : Statement .hlt := fun _ => rfl
theorem ldi (reg imm8 : Byte) : Statement (.ldi reg imm8) := fun _ => rfl
theorem prn (reg : Byte) : Statement (.prn reg) := fun _ => rfl
theorem mul (regA regB : Byte) : Statement (.mul regA regB) := fun _ => rfl
theorem add (regA regB : Byte) : Statement (.add regA regB) := fun _ => rfl
theorem cmp (regA regB : Byte) : Statement (.cmp regA regB) := fun _ => rfl
theorem push (reg : Byte) : Statement (.push reg) := fun _ => rfl
theorem pop (reg : Byte) : Statement (.pop reg) := fun _ => rfl
theorem call (reg : Byte) : Statement (.call reg) := fun _ => rfl
theorem ret : Statement .ret := fun _ => rfl
theorem jmp (reg : Byte) : Statement (.jmp reg) := fun _ => rfl
theorem jeq (reg : Byte) : Statement (.jeq reg) := fun _ => rfl
theorem jne (reg : Byte) : Statement (.jne reg) := fun _ => rfl

end Sys2Proof.Laws.EncodedLength
end

