-- ==== Sys2Proof/Machine/Diagnosis.lean ====
section
/-! DEFINITION. The diagnostic context of an `OutOfBounds` (R116, R118): which of OB1..OB6 an instruction raises
first. Outside the fault record; no claim rests on it (D14, log 14). -/

namespace Sys2Proof.Machine

/-- The sub-cause of a compute phase that raised. -/
def Compute.subCause : Compute State → Option Oob
  | .ok _ => none
  | .error d => some d

/-- The first check of R118's order that fails for an instruction in a state, if one does. -/
def diagnose (i : Instr) (s : State) : Option Oob :=
  match i with
  | .hlt => none
  | .ldi r v => (computeLdi r v s).subCause
  | .prn r => (computePrn r s).subCause
  | .mul a b => (computeAlu .mul a b s).subCause
  | .add a b => (computeAlu .add a b s).subCause
  | .cmp a b => (computeAlu .cmp a b s).subCause
  | .push r => (computePush r s).subCause
  | .pop r => (computePop r s).subCause
  | .call r => (computeCall r s).subCause
  | .ret => (computeRet s).subCause
  | .jmp r => (computeJmp r s).subCause
  | .jeq r => (computeBranch s.fl.equal r s).subCause
  | .jne r => (computeBranch s.fl.notEqual r s).subCause

end Sys2Proof.Machine
end

