-- ==== Sys2Proof/Tests/Slice0.lean ====
section
/-! SUPPORT. The model's own tests: well-formedness, decoding of words written out from the spec's encodings, one
step of each instruction on the values of spec/95_test_vectors.md, and for each statement with hypotheses a state
and operands that meet them together. -/

namespace Sys2Proof.Tests

open Sys2Proof Sys2Proof.Machine

/-! ### Helpers -/

/-- The reset state with `bytes` at `pc`. -/
def ready (pc : Byte) (bytes : List Byte) : State :=
  { State.reset with pc := pc, mem := Memory.store [] pc.toNat bytes }

/-- The state a step answers, or the old one. -/
def after (s : State) : State :=
  match step s with
  | .next t => t
  | .fault _ => s
  | .refused _ => s

/-- The state after an instruction, or the old one. -/
def result (i : Instr) (s : State) : State :=
  match exec i s with
  | .next t => t
  | .fault _ => s
  | .refused _ => s

theorem exec_result (i : Instr) (s : State) : exec i s = .next (result i s) := by
  obtain ⟨t, ht⟩ := exec_total i s
  rw [ht, result, ht]

theorem stepWith_after {s : State} (h : s.run = .running) : stepWith opcodes s = .next (after s) := by
  have total : ∃ t, stepWith opcodes s = .next t := by
    rw [stepWith_running opcodes h, runOneWith]
    cases fetchWith opcodes s with
    | none => exact ⟨_, rfl⟩
    | some i => exact exec_total i s
  obtain ⟨t, ht⟩ := total
  rw [after, step, ht]

/-! ### Well-formedness: a register byte above 7 is refused in every register field (R51, R56) -/

theorem test_wf_ldi : (Instr.ldi 8 0).wf = false ∧ (Instr.ldi 7 255).wf = true := by decide
theorem test_wf_prn : (Instr.prn 9).wf = false ∧ (Instr.prn 7).wf = true := by decide
theorem test_wf_mul : (Instr.mul 8 0).wf = false ∧ (Instr.mul 0 8).wf = false := by decide
theorem test_wf_add : (Instr.add 255 0).wf = false ∧ (Instr.add 0 16).wf = false := by decide
theorem test_wf_cmp : (Instr.cmp 8 7).wf = false ∧ (Instr.cmp 7 8).wf = false := by decide
theorem test_wf_stack : (Instr.push 8).wf = false ∧ (Instr.pop 8).wf = false := by decide
theorem test_wf_control :
    (Instr.call 8).wf = false ∧ (Instr.jmp 8).wf = false ∧ (Instr.jeq 8).wf = false ∧ (Instr.jne 8).wf = false := by
  decide
theorem test_wf_plain : Instr.hlt.wf = true ∧ Instr.ret.wf = true := by decide

/-! ### Decoding (table V-ENC) -/

theorem test_decode_hlt : decode [0b00000001] = .ok (.hlt, []) := rfl
theorem test_decode_ldi : decode [0b10000010, 0b00000111, 0b11111111] = .ok (.ldi 7 255, []) := rfl
theorem test_decode_prn : decode [0b01000111, 0b00000000, 0x01] = .ok (.prn 0, [0x01]) := rfl
theorem test_decode_mul : decode [0b10100010, 0b00000000, 0b00000001] = .ok (.mul 0 1, []) := rfl
theorem test_decode_add : decode [0b10100000, 0b00000010, 0b00000011] = .ok (.add 2 3, []) := rfl
theorem test_decode_cmp : decode [0b10100111, 0b00000100, 0b00000101] = .ok (.cmp 4 5, []) := rfl
theorem test_decode_push : decode [0b01000101, 0b00000110] = .ok (.push 6, []) := rfl
theorem test_decode_pop : decode [0b01000110, 0b00000111] = .ok (.pop 7, []) := rfl
theorem test_decode_call : decode [0b01010000, 0b00000001] = .ok (.call 1, []) := rfl
theorem test_decode_ret : decode [0b00010001] = .ok (.ret, []) := rfl
theorem test_decode_jmp : decode [0b01010100, 0b00000010] = .ok (.jmp 2, []) := rfl
theorem test_decode_jeq : decode [0b01010101, 0b00000011] = .ok (.jeq 3, []) := rfl
theorem test_decode_jne : decode [0b01010110, 0b00000100] = .ok (.jne 4, []) := rfl
theorem test_decode_illegal : [0x00, 0x02, 0xA8, 0xFF].map (fun b => decodeOpcode opcodes b) = [none, none, none, none] := by
  decide
theorem test_decode_short : decode [0x82, 0x00] = .error (.missingOperand .ldi) := rfl
theorem test_table_word_ldi : decodeTableWord 24 0x820000 = some (.ldi 0 0) := by decide
theorem test_table_word_jne : decodeTableWord 16 0x5604 = some (.jne 4) := by decide
/-- The opcode lengths agree with the `AA` field of R54. -/
theorem test_length_is_AA : ∀ k ∈ Mnemonic.all, k.operandCount = (opcodes k).toNat / 64 := by decide

/-! ### One step of each instruction (spec/95_test_vectors.md) -/

theorem test_hlt_at_255 : after (ready 255 [0x01]) = { ready 255 [0x01] with run := .halted } := by decide
theorem test_ldi_last_place :
    (after (ready 252 [0x82, 0x01, 0x2A])).reg 1 = 42 ∧ (after (ready 252 [0x82, 0x01, 0x2A])).pc = 255 := by decide
theorem test_ldi_falls_off :
    after (ready 253 [0x82, 0x01, 0x2A]) =
      { ready 253 [0x82, 0x01, 0x2A] with run := .faulted .outOfBounds 253 0x82 } := by decide
theorem test_prn : (after ({ ready 9 [0x47, 0x00] with out := [1] }.setReg 0 72)).out = [1, 72] := by decide
theorem test_prn_falls_off :
    (after (ready 254 [0x47, 0x00])).out = [] ∧ (after (ready 254 [0x47, 0x00])).run = .faulted .outOfBounds 254 0x47 := by
  decide
theorem test_mul_low_byte : (after (((ready 0 [0xA2, 0, 1]).setReg 0 255).setReg 1 255)).reg 0 = 1 := by decide
theorem test_mul_same_register : (after ((ready 0 [0xA2, 2, 2]).setReg 2 3)).reg 2 = 9 := by decide
theorem test_add_wraps : (after (((ready 0 [0xA0, 0, 1]).setReg 0 200).setReg 1 100)).reg 0 = 44 := by decide
theorem test_add_operand_b_faults :
    (after (ready 0 [0xA0, 0, 8])).run = .faulted .outOfBounds 0 0xA0 ∧ (after (ready 0 [0xA0, 0, 8])).pc = 0 := by decide
theorem test_cmp_unsigned :
    (after ((ready 0 [0xA7, 0, 1]).setReg 1 255)).fl = { e := false, g := false, l := true } := by decide
theorem test_cmp_greater :
    (after (((ready 0 [0xA7, 0, 1]).setReg 0 128).setReg 1 127)).fl = { e := false, g := true, l := false } := by decide
theorem test_push_own_operand_byte :
    (after (((ready 0x20 [0x45, 3]).setReg 3 1).setSp 0x22)).byteAt 0x21 = 1 ∧
      (after (((ready 0x20 [0x45, 3]).setReg 3 1).setSp 0x22)).sp = 0x21 := by decide
theorem test_push_at_zero : (after ((ready 4 [0x45, 0]).setSp 0)).run = .faulted .outOfBounds 4 0x45 := by decide
theorem test_pop_top :
    (after (((ready 0 [0x46, 0]).setSp 254).memWrite 254 0x77)).reg 0 = 0x77 ∧
      (after (((ready 0 [0x46, 0]).setSp 254).memWrite 254 0x77)).sp = 255 := by decide
theorem test_pop_past_top :
    (after (((ready 0 [0x46, 0]).setSp 255).memWrite 255 0x77)).run = .faulted .outOfBounds 0 0x46 := by decide
theorem test_call_last_place :
    (after (ready 253 [0x50, 1])).byteAt 0xF3 = 0xFF ∧ (after (ready 253 [0x50, 1])).sp = 0xF3 ∧
      (after (ready 253 [0x50, 1])).pc = 0 := by decide
theorem test_call_at_254 : (after (ready 254 [0x50, 1])).run = .faulted .outOfBounds 254 0x50 := by decide
theorem test_ret_at_255 :
    (after (((ready 255 [0x11]).setSp 0xF3).memWrite 0xF3 2)).pc = 2 ∧
      (after (((ready 255 [0x11]).setSp 0xF3).memWrite 0xF3 2)).sp = 0xF4 := by decide
theorem test_ret_past_top : (after ((ready 0 [0x11]).setSp 255)).run = .faulted .outOfBounds 0 0x11 := by decide
theorem test_jmp_at_254 : (after ((ready 254 [0x54, 0]).setReg 0 9)).pc = 9 := by decide
theorem test_jmp_at_255 : (after (ready 255 [0x54])).run = .faulted .outOfBounds 255 0x54 := by decide
theorem test_jeq_taken_at_254 :
    (after (({ ready 254 [0x55, 0] with fl := { e := true, g := false, l := false } }).setReg 0 4)).pc = 4 := by decide
theorem test_jeq_untaken_checks_register : (after (ready 0x10 [0x55, 9])).run = .faulted .outOfBounds 0x10 0x55 := by
  decide
theorem test_jne_reset_flags : (after ((ready 0x14 [0x56, 3]).setReg 3 0x0C)).pc = 0x0C := by decide
theorem test_jne_untaken :
    (after { ready 0x14 [0x56, 3] with fl := { e := true, g := false, l := false } }).pc = 0x16 := by decide
theorem test_illegal : after (ready 3 [0x00]) = { ready 3 [0x00] with run := .faulted .illegalInstruction 3 0 } := by decide
theorem test_no_step_when_halted : step { State.reset with run := .halted } = .fault .noStepWhenHalted := rfl
theorem test_fetch_word : (after (State.reset.withFetchWord 24 0x820508)).reg 5 = 8 := by decide
/-- R118: POP R9 at 254 with `sp = 255` is OB2 first. -/
theorem test_diagnosis_order :
    diagnose (.pop 9) { State.reset with pc := 254, sp := 255 } = some .registerIndex ∧
      diagnose (.pop 7) { State.reset with pc := 254, sp := 255 } = some .stackPointer := by decide
/-- R19: Equal 0x01, Greater 0x02, Less 0x04. -/
theorem test_flags_display :
    (compareFlags 5 5).display = 1 ∧ (compareFlags 6 5).display = 2 ∧ (compareFlags 5 6).display = 4 := by decide
/-- R131: `load` of three bytes from address 0; an empty load changes nothing. -/
theorem test_load :
    State.reset.load [0x01, 0x00, 0x07] = .ok { State.reset with mem := [(0, 0x01), (2, 0x07)] } ∧
      State.reset.load [] = .ok State.reset := by decide
theorem test_load_after_run : ({ core := State.reset, begun := true } : Session).load [] = .refused .loadAfterRunBegan := rfl

/-! ### Witnesses: every statement with hypotheses has a case -/

/-- An injective map, a running state and an opcode byte (StepFetchesDecodesExecutes, StepTotalExactlyWhenRunning). -/
theorem witness_step_hlt :
    OpcodeMap.Injective opcodes ∧ (ready 255 [0x01]).run = .running ∧ (ready 255 [0x01]).opcodeByte = opcodes .hlt :=
  ⟨opcodes_injective, by decide⟩

theorem witness_step_dispatched : (ready 0 [0x82, 7, 255]).run = .running ∧ opcodes .ldi = (ready 0 [0x82, 7, 255]).opcodeByte := by
  decide

/-- StepFetchesDecodesExecutes and IllegalOpcodeRaises. -/
theorem witness_illegal_opcode : State.reset.run = .running ∧ ∀ k, opcodes k ≠ State.reset.opcodeByte := by
  refine ⟨rfl, fun k => ?_⟩
  cases k <;> decide

/-- StepTotalExactlyWhenRunning, second clause. -/
theorem witness_not_running : (after (ready 0 [0x01])).run ≠ .running := by decide

/-- StepRunsInstructionAtPc, the last place an LDI fits. -/
theorem witness_instruction_at_pc :
    (ready 253 [0x82, 7, 255]).run = .running ∧
      (ready 253 [0x82, 7, 255]).pc.toNat + (encodeWith opcodes (.ldi 7 255)).length ≤ 256 ∧
      ∀ k, k < (encodeWith opcodes (.ldi 7 255)).length →
        (ready 253 [0x82, 7, 255]).byteAt ((ready 253 [0x82, 7, 255]).pc.toNat + k) =
          (encodeWith opcodes (.ldi 7 255)).getD k 0 := by decide

/-- EncodeOfDecode and EncodingLengths. -/
theorem witness_decodes : decodeWith opcodes [0x82, 8, 1, 0x47] = .ok (.ldi 8 1, [0x47]) := rfl

theorem witness_lengths :
    Instr.ret.mnemonic ∈ [Mnemonic.hlt, .ret] ∧
      (Instr.jne 0).mnemonic ∈ [Mnemonic.prn, .push, .pop, .call, .jmp, .jeq, .jne] ∧
      (Instr.cmp 0 0).mnemonic ∈ [Mnemonic.ldi, .mul, .add, .cmp] := by decide

/-- EncodingLengths, the clauses on the fetch: a three-byte and a two-byte instruction at the last place they fit,
and two states with one opcode byte. -/
theorem witness_fetches :
    fetchWith opcodes (ready 253 [0x82, 7, 255]) = some (.ldi 7 255) ∧ (ready 253 []).pc.toNat + 3 ≤ 256 ∧
      fetchWith opcodes (ready 254 [0x56, 4]) = some (.jne 4) ∧ (ready 254 []).pc.toNat + 2 ≤ 256 ∧
      fetchWith opcodes (ready 9 [0x82, 1, 2]) = some (.ldi 1 2) ∧
      (ready 253 [0x82, 7, 255]).byteAt 253 = (ready 9 [0x82, 1, 2]).byteAt 9 ∧
      (ready 253 [0x82, 7, 255]).byteAt 253 = opcodes .ldi := by decide

/-- PlacedTableWordRuns, at the last `pc` that leaves room. -/
theorem witness_placed : Memory.wf State.reset.mem = true ∧ (ready 253 []).pc.toNat + 3 ≤ 256 := by decide

/-- StepKeepsStateLegal: a legal state with a next state. -/
theorem witness_legal_step :
    (ready 0 [0x01]).Legal opcodes ∧ stepWith opcodes (ready 0 [0x01]) = .next (after (ready 0 [0x01])) :=
  ⟨⟨by decide, by decide, fun _ _ _ h => (nomatch h), fun h => (nomatch h)⟩, stepWith_after rfl⟩

/-- LoadedRunsStayLegal: the program of one HLT. -/
theorem witness_loaded_run :
    State.reset.load [0x01] = .ok (ready 0 [0x01]) ∧ Reaches opcodes (ready 0 [0x01]) (after (ready 0 [0x01])) :=
  ⟨by decide, .step .refl (stepWith_after rfl)⟩

/-- RunsAreDeterministic, BoundedRunFollowsSteps, CompletedRunStandsAtHlt. -/
theorem witness_completes : Completes opcodes (ready 0 [0x01]) (after (ready 0 [0x01])) :=
  ⟨⟨.step .refl (stepWith_after rfl), by decide⟩, by decide⟩

/-- LdiLoadsImmediate, MulMultipliesModulo256, AddAddsModulo256, CmpSetsExactlyOneFlag: R7 and the last place. -/
theorem witness_three_bytes :
    (7 : Byte).toNat = (7 : RegIdx).val ∧ (0 : Byte).toNat = (0 : RegIdx).val ∧ (ready 252 []).pc.toNat + 3 ≤ 255 := by
  decide

/-- PrnEmitsRegister. -/
theorem witness_two_bytes : (7 : Byte).toNat = (7 : RegIdx).val ∧ (ready 253 []).pc.toNat + 2 ≤ 255 := by decide

/-- PushStoresBelowStackPointer, CallPushesReturnAddressAndJumps: the lowest slot. -/
theorem witness_push :
    Memory.wf ((ready 253 []).setSp 1).mem = true ∧ (7 : Byte).toNat = (7 : RegIdx).val ∧
      1 ≤ ((ready 253 []).setSp 1).sp.toNat ∧ ((ready 253 []).setSp 1).pc.toNat + 2 ≤ 255 := by decide

/-- PopLoadsFromStackPointer, RetPopsProgramCounter: the highest slot. -/
theorem witness_pop :
    (7 : Byte).toNat = (7 : RegIdx).val ∧ ((ready 253 []).setSp 254).sp.toNat ≤ 254 ∧
      ((ready 253 []).setSp 254).pc.toNat + 2 ≤ 255 := by decide

/-- JmpJumpsToRegister, and the taken clauses of JeqJumpsWhenEqual and JneJumpsWhenNotEqual, at 254. -/
theorem witness_taken :
    (7 : Byte).toNat = (7 : RegIdx).val ∧ (ready 254 []).pc.toNat + 1 ≤ 255 ∧ (ready 254 []).fl.e = false ∧
      { ready 254 [] with fl := { e := true, g := false, l := false } }.fl.e = true := by decide

/-- The clauses of JeqJumpsWhenEqual and JneJumpsWhenNotEqual that fall through, at 253. -/
theorem witness_not_taken :
    (ready 253 []).pc.toNat + 2 ≤ 255 ∧ (ready 253 []).fl.e = false ∧
      { ready 253 [] with fl := { e := true, g := false, l := false } }.fl.e = true := by decide

/-- InstructionRaisesExactlyOutOfRange: one state for each of OB1 to OB6, and one that is in range. -/
theorem witness_out_of_range :
    OutOfRange (.jmp 0) (ready 255 [0x54]) ∧ OutOfRange (.cmp 7 8) (ready 0 []) ∧
      OutOfRange (.push 7) ((ready 0 []).setSp 0) ∧ OutOfRange .ret ((ready 255 []).setSp 255) ∧
      OutOfRange (.jeq 0) (ready 254 []) ∧ OutOfRange (.call 0) (ready 254 []) :=
  ⟨.operandAddress (by decide), .registerIndex 8 (by decide) (by decide), .stackSlot (by decide) (by decide),
    .stackPointer (by decide) (by decide), .advance (by decide) (by decide), .returnAddress (by decide) (by decide)⟩

theorem witness_in_range : ¬ OutOfRange .hlt (ready 255 [0x01]) := by
  rintro (h | ⟨b, hb, h⟩ | ⟨hi, h⟩ | ⟨hi, h⟩ | ⟨hi, h⟩ | ⟨hi, h⟩)
  · exact absurd h (by decide)
  · exact absurd hb (by simp [registerBytes])
  · exact absurd hi (by decide)
  · exact absurd hi (by decide)
  · exact absurd hi (by decide)
  · exact absurd hi (by decide)

/-- FaultsArePrecise, with each cause. -/
theorem witness_faults :
    stepWith opcodes (ready 255 [0x54]) = .next (after (ready 255 [0x54])) ∧
      (after (ready 255 [0x54])).run = .faulted .outOfBounds 255 0x54 ∧
      stepWith opcodes State.reset = .next (after State.reset) ∧
      (after State.reset).run = .faulted .illegalInstruction 0 0 :=
  ⟨stepWith_after rfl, by decide, stepWith_after rfl, by decide⟩

/-- RegisterWritersFrame: a committed and a raised outcome. -/
theorem witness_register_writers :
    exec (.ldi 7 1) (ready 252 []) = .next (result (.ldi 7 1) (ready 252 [])) ∧
      (result (.ldi 7 1) (ready 252 [])).pc = 255 ∧
      exec (.add 8 0) (ready 0 []) = .next (result (.add 8 0) (ready 0 [])) ∧
      (result (.add 8 0) (ready 0 [])).run = .faulted .outOfBounds 0 0 :=
  ⟨exec_result _ _, by decide, exec_result _ _, by decide⟩

/-- OutputCompareJumpFrame and HltFrame. -/
theorem witness_output_compare_jump :
    exec (.prn 7) (ready 253 []) = .next (result (.prn 7) (ready 253 [])) ∧
      (result (.prn 7) (ready 253 [])).out = [0] ∧
      exec (.cmp 7 7) (ready 252 []) = .next (result (.cmp 7 7) (ready 252 [])) ∧
      (result (.cmp 7 7) (ready 252 [])).fl.e = true ∧
      exec .hlt (ready 255 []) = .next (result .hlt (ready 255 [])) :=
  ⟨exec_result _ _, by decide, exec_result _ _, by decide, exec_result _ _⟩

/-- PushCallFrame: a store to the lowest slot, and a raise with no slot. -/
theorem witness_push_call :
    exec (.push 7) ((ready 9 []).setSp 1) = .next (result (.push 7) ((ready 9 []).setSp 1)) ∧
      pushSlot ((ready 9 []).setSp 1) = .ok 0 ∧
      exec (.call 7) ((ready 9 []).setSp 0) = .next (result (.call 7) ((ready 9 []).setSp 0)) ∧
      ∀ a, pushSlot ((ready 9 []).setSp 0) ≠ .ok a :=
  ⟨exec_result _ _, pushSlot_eq_ok.2 rfl, exec_result _ _,
    fun _ h => absurd (pushSlot_eq_ok.1 h) (Nat.succ_ne_zero _)⟩

/-- PopRetFrame. -/
theorem witness_pop_ret :
    exec (.pop 7) ((ready 9 []).setSp 254) = .next (result (.pop 7) ((ready 9 []).setSp 254)) ∧
      (result (.pop 7) ((ready 9 []).setSp 254)).sp = 255 ∧
      exec .ret ((ready 9 []).setSp 254) = .next (result .ret ((ready 9 []).setSp 254)) :=
  ⟨exec_result _ _, by decide, exec_result _ _⟩

/-- OnlyCmpWritesFlags, StackPointerMovesByOne, HaltedExactlyByHlt: steps of a CMP, a PUSH, a POP and a HLT. -/
theorem witness_steps :
    stepWith opcodes (ready 0 [0xA7, 7, 7]) = .next (after (ready 0 [0xA7, 7, 7])) ∧
      (ready 0 [0xA7, 7, 7]).opcodeByte = opcodes .cmp ∧ (after (ready 0 [0xA7, 7, 7])).run = .running ∧
      stepWith opcodes ((ready 0 [0x45, 0]).setSp 1) = .next (after ((ready 0 [0x45, 0]).setSp 1)) ∧
      (after ((ready 0 [0x45, 0]).setSp 1)).sp = 0 ∧
      stepWith opcodes ((ready 0 [0x46, 0]).setSp 254) = .next (after ((ready 0 [0x46, 0]).setSp 254)) ∧
      (after ((ready 0 [0x46, 0]).setSp 254)).sp = 255 ∧
      stepWith opcodes (ready 255 [0x01]) = .next (after (ready 255 [0x01])) ∧
      (after (ready 255 [0x01])).run = .halted :=
  ⟨stepWith_after rfl, by decide, by decide, stepWith_after rfl, by decide, stepWith_after rfl, by decide,
    stepWith_after rfl, by decide⟩

/-- A PUSH of 9 to the lowest cell. -/
def pushNine : State := ((ready 4 [0x45, 0]).setReg 0 9).setSp 1

/-- MemoryWrittenByPushAndCallAlone: a step that changes a cell, a `load`, and a run that began. -/
theorem witness_memory_write :
    stepWith opcodes pushNine = .next (after pushNine) ∧ (after pushNine).byteAt 0 ≠ pushNine.byteAt 0 ∧
      State.reset.load [1] = .ok (ready 0 [1]) ∧ ({ core := State.reset, begun := true } : Session).begun = true :=
  ⟨stepWith_after rfl, by decide, by decide, rfl⟩

/-- OutputGrowsByPrnAlone: a PRN, another instruction, a HLT. -/
theorem witness_output :
    stepWith opcodes (ready 253 [0x47, 7]) = .next (after (ready 253 [0x47, 7])) ∧
      (ready 253 [0x47, 7]).opcodeByte = opcodes .prn ∧ (after (ready 253 [0x47, 7])).run = .running ∧
      (ready 255 [0x01]).opcodeByte ≠ opcodes .prn ∧ (after (ready 255 [0x01])).run ≠ .running :=
  ⟨stepWith_after rfl, by decide, by decide, by decide, by decide⟩

/-- NothingTestsGreaterOrLess: two states that differ in Greater and Less, a JEQ and a JNE that are taken. -/
theorem witness_greater_less :
    SameButGreaterLess (ready 0 [0x55, 7]) { ready 0 [0x55, 7] with fl := { e := false, g := true, l := true } } ∧
      stepWith opcodes (ready 0 [0x55, 7]) = .next (after (ready 0 [0x55, 7])) ∧
      { ready 0 [] with fl := { e := true, g := false, l := false } }.fl.e = true ∧ (ready 0 []).fl.e = false :=
  ⟨rfl, stepWith_after rfl, rfl, rfl⟩

/-- NothingTestsGreaterOrLess: the last place a JEQ or JNE that is not taken fits, and a CMP likewise. -/
theorem witness_no_jump :
    (7 : Byte).toNat = (7 : RegIdx).val ∧ (ready 253 []).pc.toNat + 2 ≤ 255 ∧ (ready 253 []).fl.e = false ∧
      { ready 253 [] with fl := { e := true, g := false, l := false } }.fl.e = true ∧
      (ready 252 []).pc.toNat + 3 ≤ 255 ∧ (((ready 252 []).setReg 7 1).reg 7 ≠ ((ready 252 []).setReg 7 1).reg 0) := by
  decide

/-- StepReadsOnlyItsCells: a RET, with a memory that differs at an address it does not read. -/
theorem witness_reads :
    Memory.wf (ready 0 [0x11]).mem = true ∧ Memory.wf [(0, 0x11), (9, 5)] = true ∧
      Memory.get [(0, 0x11), (9, 5)] (ready 0 [0x11]).pc.toNat = (ready 0 [0x11]).opcodeByte ∧
      (∀ k a, opcodes k = (ready 0 [0x11]).opcodeByte → readsCell (ready 0 [0x11]) k a →
        Memory.get [(0, 0x11), (9, 5)] a = (ready 0 [0x11]).byteAt a) ∧
      stepWith opcodes (ready 0 [0x11]) = .next (after (ready 0 [0x11])) := by
  refine ⟨by decide, by decide, by decide, fun k a hk hr => ?_, stepWith_after rfl⟩
  have hret : k = .ret := opcodes_injective hk
  subst hret
  rcases hr with ⟨h1, h2⟩ | ⟨_, rfl⟩
  · simp only [Mnemonic.operandCount] at h2
    omega
  · decide

/-- AluTouchesOnlyItsTarget: another state with the same two source registers. -/
theorem witness_alu :
    (AluOp.add = AluOp.add ∨ AluOp.add = AluOp.mul) ∧ (1 : RegIdx) ≠ 0 ∧
      ((ready 9 []).setReg 5 1).reg 0 = State.reset.reg 0 ∧ ((ready 9 []).setReg 5 1).reg 1 = State.reset.reg 1 := by
  decide

/-- StackIsBalancedAndLifo: two pushes and two pops that do not raise. -/
theorem witness_stack_balance :
    Memory.wf (ready 0 []).mem = true ∧ (ready 0 []).run = .running ∧ ([0, 1] : List Byte).length = ([2, 3] : List Byte).length ∧
      (execAll (([0, 1] : List Byte).map Instr.push ++ ([2, 3] : List Byte).map Instr.pop)
        (((ready 0 []).setReg 0 5).setReg 1 6)).isSome = true ∧
      ([2, 3] : List Byte).Nodup ∧ (([2, 3] : List Byte).getD 1 0).toNat = (3 : RegIdx).val ∧
      (([0, 1] : List Byte).getD (2 - 1 - 1) 0).toNat = (0 : RegIdx).val := by decide

/-- CallThenRetResumesAfterCall: the state after the CALL itself meets what is asked of the state at the RET. -/
theorem witness_call_ret :
    Memory.wf (ready 6 []).mem = true ∧ (ready 6 []).run = .running ∧
      exec (.call 1) (ready 6 []) = .next (result (.call 1) (ready 6 [])) ∧
      (result (.call 1) (ready 6 [])).run = .running :=
  ⟨by decide, rfl, exec_result _ _, by decide⟩

/-- A PUSH at 0x20 of register 3. -/
def pushAt (sp : Byte) : State := ((ready 0x20 []).setReg 3 1).setSp sp

/-- StoreSeenByNextFetch: a PUSH whose slot is the next opcode's address, and one whose slot is elsewhere. -/
theorem witness_store_fetched :
    Memory.wf (pushAt 0x23).mem = true ∧ (pushAt 0x23).run = .running ∧ (3 : Byte).toNat = (3 : RegIdx).val ∧
      exec (.push 3) (pushAt 0x23) = .next (result (.push 3) (pushAt 0x23)) ∧
      (result (.push 3) (pushAt 0x23)).run = .running ∧
      (result (.push 3) (pushAt 0x23)).pc = (result (.push 3) (pushAt 0x23)).sp ∧
      (result (.push 3) (pushAt 0xF4)).pc ≠ (result (.push 3) (pushAt 0xF4)).sp :=
  ⟨by decide, rfl, rfl, exec_result _ _, by decide, by decide, by decide⟩

/-- A CALL at 0x20 through register 3, which holds `target`. -/
def callTo (target : Byte) : State := (ready 0x20 []).setReg 3 target

/-- StoreSeenByNextFetch: a CALL to the slot itself (0xF3, it holds the return address 0x22), one whose next operand
byte is the slot, and one to elsewhere. -/
theorem witness_call_fetched :
    Memory.wf (callTo 0xF3).mem = true ∧ (callTo 0xF3).run = .running ∧
      (0x22 : Byte).toNat = (callTo 0xF3).pc.toNat + 2 ∧
      exec (.call 3) (callTo 0xF3) = .next (result (.call 3) (callTo 0xF3)) ∧
      (result (.call 3) (callTo 0xF3)).run = .running ∧
      (result (.call 3) (callTo 0xF3)).pc = (result (.call 3) (callTo 0xF3)).sp ∧
      (result (.call 3) (callTo 0xF2)).pc.toNat + 1 = (result (.call 3) (callTo 0xF2)).sp.toNat ∧
      (result (.call 3) (callTo 0x40)).pc ≠ (result (.call 3) (callTo 0x40)).sp :=
  ⟨by decide, rfl, rfl, exec_result _ _, by decide, by decide, by decide, by decide⟩

/-- LoadCopiesOrFails: the longest program that loads and the shortest that does not. -/
theorem witness_load :
    (List.replicate 256 (0x01 : Byte)).length ≤ 256 ∧ 256 < (List.replicate 257 (0x01 : Byte)).length :=
  ⟨by rw [List.length_replicate], by rw [List.length_replicate]; exact Nat.lt_succ_self 256⟩

/-- HostOperationOrder: a session before and one after `run()`. -/
theorem witness_sessions :
    Session.construct.begun = false ∧ ({ Session.construct with begun := true } : Session).begun = true := ⟨rfl, rfl⟩

/-- ResetIsLegal's invariant is one a state can fail: memory out of order, two flags set. -/
theorem witness_legal_excludes :
    Memory.wf [(3, 1), (2, 1)] = false ∧ Memory.wf [(256, 1)] = false ∧ Memory.wf [(0, 0)] = false ∧
      ({ e := true, g := true, l := false } : Flags).count = 2 := by decide

end Sys2Proof.Tests
end

section
/-! PROOFS. The runs of the model as the reflexive-transitive closure of its step, the step as a partial function
that is total on `Running`, and the statement of R4 from both. -/

namespace Sys2Proof.Machine

variable {opc : OpcodeMap} {s t u : State}

/-! ### The step is a function, total on `Running` -/

/-- In `Running` the fetch finds an illegal opcode, which raises, or an instruction, which answers a next state. -/
theorem stepWith_total (opc : OpcodeMap) (h : s.run = .running) : ∃ t, stepWith opc s = .next t := by
  rw [stepWith_running opc h, runOneWith]
  cases fetchWith opc s with
  | none => exact ⟨s.raise .illegalInstruction, rfl⟩
  | some i => exact exec_total i s

theorem stepsTo_rightUnique (opc : OpcodeMap) : Relator.RightUnique (StepsTo opc) :=
  fun _ _ _ ht hu => Host.Outcome.next.inj (ht.symm.trans hu)

/-! ### Runs -/

/-- Ties runs to the library's closure, whose lemmas then speak of them. -/
theorem reaches_iff_reflTransGen : Reaches opc s t ↔ Relation.ReflTransGen (StepsTo opc) s t := by
  constructor
  · intro h
    induction h with
    | refl => exact .refl
    | step _ hstep ih => exact ih.tail hstep
  · intro h
    induction h with
    | refl => exact .refl
    | tail _ hstep ih => exact ih.step hstep

/-- The states of the runs from one state lie on one path. -/
theorem Reaches.comparable (ht : Reaches opc s t) (hu : Reaches opc s u) : Reaches opc t u ∨ Reaches opc u t := by
  simp only [reaches_iff_reflTransGen] at *
  exact ht.total_of_right_unique (stepsTo_rightUnique opc) hu

/-- A run is empty or has a first step. -/
theorem Reaches.cases_head (h : Reaches opc s t) : s = t ∨ ∃ v, StepsTo opc s v ∧ Reaches opc v t := by
  simp only [reaches_iff_reflTransGen] at *
  exact h.cases_head

/-- A state that is not `Running` reaches only itself (R78). -/
theorem Reaches.eq_of_not_running (h : Reaches opc s t) (hs : s.run ≠ .running) : s = t := by
  obtain heq | ⟨v, hstep, -⟩ := h.cases_head
  · exact heq
  · exact absurd (running_of_stepWith hstep) hs

/-- Of two ended runs one continues the other, and an ended run has no continuation. -/
theorem EndsIn.unique (ht : EndsIn opc s t) (hu : EndsIn opc s u) : t = u := by
  obtain ⟨hst, htEnded⟩ := ht
  obtain ⟨hsu, huEnded⟩ := hu
  obtain htu | hut := hst.comparable hsu
  · exact htu.eq_of_not_running htEnded
  · exact (hut.eq_of_not_running huEnded).symm

/-- Settles O15: the step is total on `Running`, and ended runs from one state end in one state. -/
theorem runsAreDeterministic : Obligations.RunsAreDeterministic :=
  fun opc => ⟨fun _ => stepWith_total opc, fun _ _ _ => EndsIn.unique⟩

end Sys2Proof.Machine
end

section
/-! PROOFS. The length of an encoding, what the decoder uses up and what the fetch unit takes from memory, and the
statement of R50 from them. -/

namespace Sys2Proof

/-- An encoding is as long as the table of R50 says for its mnemonic. -/
theorem encodeWith_length (opc : OpcodeMap) (i : Instr) : (encodeWith opc i).length = i.mnemonic.length := by
  cases i with
  | hlt => exact Laws.EncodedLength.hlt opc
  | ldi reg imm8 => exact Laws.EncodedLength.ldi reg imm8 opc
  | prn reg => exact Laws.EncodedLength.prn reg opc
  | mul regA regB => exact Laws.EncodedLength.mul regA regB opc
  | add regA regB => exact Laws.EncodedLength.add regA regB opc
  | cmp regA regB => exact Laws.EncodedLength.cmp regA regB opc
  | push reg => exact Laws.EncodedLength.push reg opc
  | pop reg => exact Laws.EncodedLength.pop reg opc
  | call reg => exact Laws.EncodedLength.call reg opc
  | ret => exact Laws.EncodedLength.ret opc
  | jmp reg => exact Laws.EncodedLength.jmp reg opc
  | jeq reg => exact Laws.EncodedLength.jeq reg opc
  | jne reg => exact Laws.EncodedLength.jne reg opc

/-- The decoder answers an instruction on an opcode byte followed by enough operand bytes, and drops exactly
those (R50, R56). -/
theorem decodeWith_cons_eq_ok {opc : OpcodeMap} {b : Byte} {tail rest : List Byte} {i : Instr} :
    decodeWith opc (b :: tail) = .ok (i, rest) ↔ ∃ k, decodeOpcode opc b = some k ∧
      k.operandCount ≤ tail.length ∧ k.instr (tail.getD 0 0) (tail.getD 1 0) = i ∧
      tail.drop k.operandCount = rest := by
  rw [decodeWith]
  cases decodeOpcode opc b with
  | none => simp
  | some k =>
    by_cases hshort : tail.length < k.operandCount
    · simp [hshort]
    · simp [hshort, Nat.le_of_not_lt hshort]

/-- The decoder uses up the bytes of the encoding (R50). -/
theorem length_of_decodeWith {opc : OpcodeMap} {bytes rest : List Byte} {i : Instr}
    (h : decodeWith opc bytes = .ok (i, rest)) : bytes.length = (encodeWith opc i).length + rest.length := by
  cases bytes with
  | nil => cases h
  | cons b tail =>
    obtain ⟨k, -, henough, rfl, rfl⟩ := decodeWith_cons_eq_ok.1 h
    rw [encodeWith_length, Mnemonic.instr_mnemonic, Mnemonic.length, List.length_cons, List.length_drop]
    omega

theorem operandBytes_of_mem_oneOperand {i : Instr} {a : Byte}
    (h : i ∈ [.prn a, .push a, .pop a, .call a, .jmp a, .jeq a, .jne a]) : i.operandBytes = [a] := by
  simp only [List.mem_cons, List.not_mem_nil, or_false] at h
  obtain rfl | rfl | rfl | rfl | rfl | rfl | rfl := h <;> rfl

theorem operandBytes_of_mem_twoOperands {i : Instr} {a b : Byte}
    (h : i ∈ [.ldi a b, .mul a b, .add a b, .cmp a b]) : i.operandBytes = [a, b] := by
  simp only [List.mem_cons, List.not_mem_nil, or_false] at h
  obtain rfl | rfl | rfl | rfl := h <;> rfl

end Sys2Proof

namespace Sys2Proof.Machine

variable {opc : OpcodeMap} {s : State} {i : Instr}

theorem decodeOpcode_of_fetchWith (h : fetchWith opc s = some i) :
    decodeOpcode opc s.opcodeByte = some i.mnemonic := by
  obtain ⟨k, hk, rfl⟩ := fetchWith_eq_some.1 h
  rwa [Mnemonic.instr_mnemonic]

/-- The operand bytes of the fetched instruction are those that follow the opcode in memory (R50). -/
theorem operandBytes_prefix_of_fetchWith (h : fetchWith opc s = some i) :
    i.operandBytes <+: [s.byteAt (s.pc.toNat + 1), s.byteAt (s.pc.toNat + 2)] := by
  obtain ⟨k, -, rfl⟩ := fetchWith_eq_some.1 h
  rw [Mnemonic.instr_operandBytes]
  exact List.take_prefix ..

/-- With an injective map the opcode at `pc` determines the fetched mnemonic (R53). -/
theorem exists_fetchWith_of_opcode (hinj : opc.Injective) {k : Mnemonic} (h : s.opcodeByte = opc k) :
    ∃ i, fetchWith opc s = some i ∧ i.mnemonic = k :=
  ⟨_, fetchWith_eq_some.2 ⟨k, (decodeOpcode_eq_some hinj).2 h.symm, rfl⟩, k.instr_mnemonic ..⟩

/-- Two fetches that see one opcode byte answer one mnemonic, injective map or not: the decoder looks at nothing
else (R60). -/
theorem mnemonic_eq_of_fetchWith {s' : State} {i' : Instr} (h : fetchWith opc s = some i)
    (h' : fetchWith opc s' = some i') (hbyte : s.opcodeByte = s'.opcodeByte) : i.mnemonic = i'.mnemonic :=
  Option.some.inj <| calc
    some i.mnemonic = decodeOpcode opc s.opcodeByte := (decodeOpcode_of_fetchWith h).symm
    _ = decodeOpcode opc s'.opcodeByte := by rw [hbyte]
    _ = some i'.mnemonic := decodeOpcode_of_fetchWith h'

theorem operandA_of_fetchWith {a : Byte} (h : fetchWith opc s = some i) (ha : i.operandBytes = [a]) :
    a = s.byteAt (s.pc.toNat + 1) := by
  have hprefix := operandBytes_prefix_of_fetchWith h
  rw [ha, List.cons_prefix_cons] at hprefix
  exact hprefix.1

theorem operandsAB_of_fetchWith {a b : Byte} (h : fetchWith opc s = some i) (hab : i.operandBytes = [a, b]) :
    a = s.byteAt (s.pc.toNat + 1) ∧ b = s.byteAt (s.pc.toNat + 2) := by
  have hprefix := operandBytes_prefix_of_fetchWith h
  rw [hab, List.cons_prefix_cons, List.cons_prefix_cons] at hprefix
  exact ⟨hprefix.1, hprefix.2.1⟩

/-- Settles O7: the lengths of the table, what the decoder uses up, and the bytes the fetch takes from memory. -/
theorem encodingLengths : Obligations.EncodingLengths := by
  intro opc
  refine ⟨fun i hi => ?oneByte, fun i hi => ?twoBytes, fun i hi => ?threeBytes, fun _ => rfl,
    fun _ _ _ => length_of_decodeWith, fun hinj _ _ => exists_fetchWith_of_opcode hinj,
    fun s s' i i' h h' hbyte => ?sameLength,
    fun s i h => ⟨?opcode, fun _ a hi => ?operandA, fun _ a b hi => ?operandsAB⟩⟩
  case oneByte =>
    rw [encodeWith_length]
    exact (by decide : ∀ k ∈ [Mnemonic.hlt, .ret], k.length = 1) _ hi
  case twoBytes =>
    rw [encodeWith_length]
    exact (by decide : ∀ k ∈ [Mnemonic.prn, .push, .pop, .call, .jmp, .jeq, .jne], k.length = 2) _ hi
  case threeBytes =>
    rw [encodeWith_length]
    exact (by decide : ∀ k ∈ [Mnemonic.ldi, .mul, .add, .cmp], k.length = 3) _ hi
  case sameLength => rw [encodeWith_length, encodeWith_length, mnemonic_eq_of_fetchWith h h' hbyte]
  case opcode => exact (opcode_of_decodeOpcode (decodeOpcode_of_fetchWith h)).symm
  case operandA => exact operandA_of_fetchWith h (operandBytes_of_mem_oneOperand hi)
  case operandsAB => exact operandsAB_of_fetchWith h (operandBytes_of_mem_twoOperands hi)

end Sys2Proof.Machine
end

section
/-! PROOFS. The statement of R78 from the step's totality, its being a function, and its having no step outside
`Running`. -/

namespace Sys2Proof.Machine

/-- Settles O14: a step exists in `Running`, it is the only one, and only `Running` has one. -/
theorem stepTotalExactlyWhenRunning : Obligations.StepTotalExactlyWhenRunning := by
  intro opc s
  constructor
  · intro hrunning
    obtain ⟨t, ht⟩ := stepWith_total opc hrunning
    exact ⟨t, ht, fun u hu => stepsTo_rightUnique opc hu ht⟩
  · intro hnot t ht
    exact hnot (running_of_stepWith ht)

end Sys2Proof.Machine
end

section
/-! PROOFS. What each ALU operation reads, writes and leaves alone (spec/42_alu.md), one equation per operation, and
the statement of R85 from them. -/

namespace Sys2Proof.Machine

@[simp] theorem alu_mul (a b : RegIdx) (s : State) :
    alu .mul a b s = s.setReg a (aluMul (s.reg a) (s.reg b)) := rfl

@[simp] theorem alu_add (a b : RegIdx) (s : State) :
    alu .add a b s = s.setReg a (aluAdd (s.reg a) (s.reg b)) := rfl

@[simp] theorem alu_cmp (a b : RegIdx) (s : State) :
    alu .cmp a b s = s.setFlags (compareFlags (s.reg a) (s.reg b)) := rfl

/-- ADD and MUL are one write of `x[a]`, by a function of the two source values that is the same in every state. -/
theorem exists_alu_eq_setReg {op : AluOp} (h : op = .add ∨ op = .mul) (a b : RegIdx) :
    ∃ f : Byte → Byte → Byte, ∀ s : State, alu op a b s = s.setReg a (f (s.reg a) (s.reg b)) := by
  obtain rfl | rfl := h
  · exact ⟨aluAdd, alu_add a b⟩
  · exact ⟨aluMul, alu_mul a b⟩

/-- No ALU operation touches memory, `pc`, `sp`, `RUN` or `OUT`. -/
theorem alu_frame (op : AluOp) (a b : RegIdx) (s : State) :
    (alu op a b s).mem = s.mem ∧ (alu op a b s).pc = s.pc ∧ (alu op a b s).sp = s.sp ∧
      (alu op a b s).run = s.run ∧ (alu op a b s).out = s.out := by
  cases op with
  | mul => simp
  | add => simp
  | cmp => simp

/-- Settles O45: ADD and MUL are one register write and CMP one flag write, each of a value computed from the two
source registers. -/
theorem aluTouchesOnlyItsTarget : Obligations.AluTouchesOnlyItsTarget := by
  intro a b s
  refine ⟨fun op hop => ?addMul, ⟨fun j => ?cmpRegs, fun s' ha hb => ?cmpReads⟩, fun op => alu_frame op a b s⟩
  case addMul =>
    obtain ⟨f, hf⟩ := exists_alu_eq_setReg hop a b
    simp only [hf]
    refine ⟨fun j hj => State.setReg_reg_of_ne s _ hj, State.setReg_fl .., fun s' ha hb => ?_⟩
    simp [ha, hb]
  case cmpRegs => rw [alu_cmp, State.setFlags_reg]
  case cmpReads => simp [ha, hb]

end Sys2Proof.Machine
end

section
/-! PROOFS. What the flags Greater and Less can influence (spec/44_control_transfer.md): nothing but themselves. The
two-state argument over the commits of every instruction, the two outcomes of a conditional jump, the flags CMP writes,
and the statement of R107 from them. -/

namespace Sys2Proof.Machine

variable {s s' t : State}

/-! ### States that differ in Greater and Less -/

/-- The second state is the first with Greater and Less written over, so that every other field reduces. -/
theorem SameButGreaterLess.exists_setFlags (h : SameButGreaterLess s s') :
    ∃ g l, s' = s.setFlags { s.fl with g := g, l := l } := ⟨s'.fl.g, s'.fl.l, h⟩

theorem SameButGreaterLess.symm (h : SameButGreaterLess s s') : SameButGreaterLess s' s := by
  obtain ⟨g, l, rfl⟩ := h.exists_setFlags
  rfl

theorem SameButGreaterLess.raise (h : SameButGreaterLess s s') (c : Cause) :
    SameButGreaterLess (s.raise c) (s'.raise c) := by
  obtain ⟨g, l, rfl⟩ := h.exists_setFlags
  rfl

theorem SameButGreaterLess.run_eq (h : SameButGreaterLess s s') : s'.run = s.run := by
  obtain ⟨g, l, rfl⟩ := h.exists_setFlags
  rfl

/-- The fetch unit does not look at the flags (R71). -/
theorem SameButGreaterLess.fetchWith_eq (h : SameButGreaterLess s s') (opc : OpcodeMap) :
    fetchWith opc s' = fetchWith opc s := by
  obtain ⟨g, l, rfl⟩ := h.exists_setFlags
  rfl

/-! ### Noninterference -/

/-- No rule's condition and no committed value reads Greater or Less: the same commit applies in the other state. The
conditional jumps read Equal, which the two states share, and CMP writes all three flags from the registers. -/
theorem Commits.of_sameButGreaterLess {i : Instr} (hs : SameButGreaterLess s s') (h : Commits s i t) :
    ∃ t', Commits s' i t' ∧ SameButGreaterLess t t' := by
  obtain ⟨g, l, rfl⟩ := hs.exists_setFlags
  cases h with
  | hlt => exact ⟨_, .hlt, rfl⟩
  | ldi r npc hr hn => exact ⟨_, .ldi r npc hr hn, rfl⟩
  | prn r npc hr hn => exact ⟨_, .prn r npc hr hn, rfl⟩
  | mul a b npc ha hb hn => exact ⟨_, .mul a b npc ha hb hn, rfl⟩
  | add a b npc ha hb hn => exact ⟨_, .add a b npc ha hb hn, rfl⟩
  | cmp a b npc ha hb hn => exact ⟨_, .cmp a b npc ha hb hn, rfl⟩
  | push r nsp npc hr hsp hn => exact ⟨_, .push r nsp npc hr hsp hn, rfl⟩
  | pop r nsp npc hr hsp hn => exact ⟨_, .pop r nsp npc hr hsp hn, rfl⟩
  | call r ret nsp hr hret hsp => exact ⟨_, .call r ret nsp hr hret hsp, rfl⟩
  | ret nsp hsp => exact ⟨_, .ret nsp hsp, rfl⟩
  | jmp r hr hp => exact ⟨_, .jmp r hr hp, rfl⟩
  | jeq r npc hr hp hn => exact ⟨_, .jeq r npc hr hp hn, rfl⟩
  | jne r npc hr hp hn => exact ⟨_, .jne r npc hr hp hn, rfl⟩

/-- An instruction commits in both states or, since the relation is symmetric, raises in both. -/
theorem exec_of_sameButGreaterLess {i : Instr} (hs : SameButGreaterLess s s') (h : exec i s = .next t) :
    ∃ t', exec i s' = .next t' ∧ SameButGreaterLess t t' := by
  obtain hcommit | ⟨rfl, hno⟩ := exec_cases h
  · obtain ⟨t', hcommit', ht⟩ := hcommit.of_sameButGreaterLess hs
    exact ⟨t', exec_of_commits hcommit', ht⟩
  · obtain ⟨t', h'⟩ := exec_total i s'
    obtain hcommit' | ⟨rfl, -⟩ := exec_cases h'
    · obtain ⟨u, hcommit, -⟩ := hcommit'.of_sameButGreaterLess hs.symm
      exact absurd hcommit (hno u)
    · exact ⟨_, h', hs.raise _⟩

theorem stepWith_of_sameButGreaterLess {opc : OpcodeMap} (hs : SameButGreaterLess s s')
    (h : stepWith opc s = .next t) : ∃ t', stepWith opc s' = .next t' ∧ SameButGreaterLess t t' := by
  have hrun : s.run = .running := running_of_stepWith h
  rw [stepWith_running opc hrun, runOneWith] at h
  rw [stepWith_running opc (hs.run_eq.trans hrun), runOneWith, hs.fetchWith_eq]
  cases hfetch : fetchWith opc s with
  | none =>
    rw [hfetch] at h
    cases h
    exact ⟨_, rfl, hs.raise _⟩
  | some i =>
    rw [hfetch] at h
    exact exec_of_sameButGreaterLess hs h

/-! ### The two outcomes of a conditional jump -/

/-- A taken conditional jump is JMP (R102 to R104). -/
@[simp] theorem computeBranch_true (reg : Byte) (s : State) : computeBranch true reg s = computeJmp reg s := rfl

/-- A conditional jump that is not taken goes on at `pc + 2` (R103, R104). -/
theorem computeBranch_false_advances {reg : Byte} {r : RegIdx} (hr : reg.toNat = r.val)
    (hpc : s.pc.toNat + 2 ≤ 255) :
    ∃ t, conclude s (computeBranch false reg s) = .next t ∧ t.run = s.run ∧ t.pc.toNat = s.pc.toNat + 2 := by
  obtain ⟨npc, -, hnpc⟩ := addr_of_lt .advance (n := s.pc.toNat + 2) (by omega)
  have hok : computeBranch false reg s = .ok (s.setPc npc) :=
    computeBranch_eq_ok.2 ⟨r, npc, hr, by omega, hnpc, rfl⟩
  exact ⟨s.setPc npc, by rw [hok, conclude_ok], rfl, hnpc⟩

/-! ### The flags CMP writes -/

/-- On equal values CMP sets Equal alone (R88). -/
@[simp] theorem compareFlags_self (x : Byte) : compareFlags x x = { e := true, g := false, l := false } := by
  simp [compareFlags]

/-- On different values exactly one of Greater and Less is set (R88). -/
theorem compareFlags_greater_of_ne {x y : Byte} (h : x ≠ y) : (compareFlags x y).g = !(compareFlags x y).l := by
  have hne : x.toNat ≠ y.toNat := fun heq => h (BitVec.eq_of_toNat_eq heq)
  simp only [compareFlags, ← decide_not, decide_eq_decide]
  omega

/-- A CMP with legal operands and room for its advance answers a state with the flags of the comparison. -/
theorem exec_cmp_flags {regA regB : Byte} {a b : RegIdx} (ha : regA.toNat = a.val) (hb : regB.toNat = b.val)
    (hpc : s.pc.toNat + 3 ≤ 255) :
    ∃ t, exec (.cmp regA regB) s = .next t ∧ t.fl = compareFlags (s.reg a) (s.reg b) := by
  obtain ⟨npc, -, hnpc⟩ := addr_of_lt .advance (n := s.pc.toNat + 3) (by omega)
  exact ⟨_, exec_of_commits (.cmp a b npc ha hb hnpc), rfl⟩

/-- Settles O40: noninterference of Greater and Less, the conditional jumps by Equal alone, and CMP's two flags. -/
theorem nothingTestsGreaterOrLess : Obligations.NothingTestsGreaterOrLess := by
  refine ⟨fun opc s s' t => stepWith_of_sameButGreaterLess, fun reg s => ⟨fun he => ?jeqTaken, fun he => ?jneTaken⟩,
    fun reg r s hr hpc => ⟨fun he => ?jeqNotTaken, fun he => ?jneNotTaken⟩,
    fun regA regB a b s ha hb hpc => ?cmp⟩
  case jeqTaken => rw [exec_jeq, Flags.equal_eq, he, computeBranch_true, exec_jmp]
  case jneTaken => rw [exec_jne, Flags.notEqual_eq, he, Bool.not_false, computeBranch_true, exec_jmp]
  case jeqNotTaken =>
    rw [exec_jeq, Flags.equal_eq, he]
    exact computeBranch_false_advances hr hpc
  case jneNotTaken =>
    rw [exec_jne, Flags.notEqual_eq, he, Bool.not_true]
    exact computeBranch_false_advances hr hpc
  case cmp =>
    obtain ⟨t, ht, hfl⟩ := exec_cmp_flags ha hb hpc
    refine ⟨t, ht, fun heq => ?_, fun hne => ?_⟩
    · simp [hfl, heq]
    · rw [hfl, compareFlags_greater_of_ne hne]

end Sys2Proof.Machine
end

section
/-! PROOFS. The illegal opcode (spec/60_exceptions.md): what the fetch unit answers on a byte that is none of the 13,
the one step from there, and the statement of R111 from both. -/

namespace Sys2Proof.Machine

variable {opc : OpcodeMap} {s : State}

/-- The fetch unit answers no instruction exactly on a byte that is no opcode (R72). -/
theorem fetchWith_eq_none : fetchWith opc s = none ↔ ∀ k, opc k ≠ s.opcodeByte := by
  rw [← decodeOpcode_eq_none, fetchWith]
  cases decodeOpcode opc s.opcodeByte <;> simp

/-- The operand bytes do not occur: the step raises on the opcode byte alone (R72). -/
theorem stepWith_of_illegal (hrun : s.run = .running) (hillegal : ∀ k, opc k ≠ s.opcodeByte) :
    stepWith opc s = .next (s.raise .illegalInstruction) := by
  rw [stepWith_running opc hrun, runOneWith, fetchWith_eq_none.2 hillegal]

/-- A raise ends the run (R20). -/
theorem State.raise_not_running (s : State) (c : Cause) : (s.raise c).run ≠ .running := by
  simp

/-- Settles O13: the next state is the raised one, which keeps every other field and has no step. -/
theorem illegalOpcodeRaises : Obligations.IllegalOpcodeRaises := by
  intro opc s hrun hillegal
  refine ⟨s.raise .illegalInstruction, stepWith_of_illegal hrun hillegal, State.raise_run s _, State.raise_regs s _,
    State.raise_sp s _, State.raise_pc s _, State.raise_fl s _, State.raise_mem s _, State.raise_out s _,
    fun u hstep => ?noStep⟩
  case noStep => exact State.raise_not_running s _ (running_of_stepWith hstep)

end Sys2Proof.Machine
end

section
/-! PROOFS. The round trip of the encoding (spec/30_encoding.md sections 1 to 4): an instruction is determined by its
mnemonic and the operand bytes its format has, so the decoder reads encodings back and reads nothing else; and the
legal bytes of the default map. -/

namespace Sys2Proof

variable {opc : OpcodeMap}

/-- An instruction has as many operand bytes as its format (R50). -/
theorem Instr.operandBytes_length (i : Instr) : i.operandBytes.length = i.mnemonic.operandCount := by
  have hlength := encodeWith_length opcodes i
  rw [encodeWith, List.length_cons, Mnemonic.length] at hlength
  omega

/-- No format has more than two operand bytes (R50). -/
theorem Mnemonic.operandCount_le_two (k : Mnemonic) : k.operandCount ≤ 2 := by
  cases k <;> decide

/-- A built instruction depends only on the operand bytes its format has (R51). -/
theorem Mnemonic.instr_congr {k : Mnemonic} {a a' b b' : Byte} (ha : 1 ≤ k.operandCount → a = a')
    (hb : 2 ≤ k.operandCount → b = b') : k.instr a b = k.instr a' b' := by
  cases k with
  | hlt | ret => rfl
  | prn | push | pop | call | jmp | jeq | jne => rw [ha (by decide)]; rfl
  | ldi | mul | add | cmp => rw [ha (by decide), hb (by decide)]

/-- Two bytes that agree with an instruction's operand bytes, as far as it has them, build it. -/
theorem Instr.instr_eq_of_operands {i : Instr} {a b : Byte}
    (ha : 1 ≤ i.mnemonic.operandCount → a = i.operandBytes.getD 0 0)
    (hb : 2 ≤ i.mnemonic.operandCount → b = i.operandBytes.getD 1 0) : i.mnemonic.instr a b = i :=
  (Mnemonic.instr_congr ha hb).trans i.instr_eq

/-- The operand bytes of an instruction, whatever follows them, are the ones it is built from. -/
theorem Instr.instr_append (i : Instr) (rest : List Byte) :
    i.mnemonic.instr ((i.operandBytes ++ rest).getD 0 0) ((i.operandBytes ++ rest).getD 1 0) = i := by
  have hlength := i.operandBytes_length
  exact i.instr_eq_of_operands (fun _ => List.getD_append _ _ _ _ (by omega))
    fun _ => List.getD_append _ _ _ _ (by omega)

theorem decodeWith_encodeWith (hinj : opc.Injective) (i : Instr) (rest : List Byte) :
    decodeWith opc (encodeWith opc i ++ rest) = .ok (i, rest) := by
  refine decodeWith_cons_eq_ok.2 ⟨i.mnemonic, decodeOpcode_opc hinj _, ?_, i.instr_append rest,
    List.drop_left' i.operandBytes_length⟩
  rw [← i.operandBytes_length, List.append_eq, List.length_append]
  exact Nat.le_add_right ..

/-- Settles O5: the opcode byte gives the mnemonic back, the bytes after it the operands. -/
theorem decodeOfEncode : Obligations.DecodeOfEncode :=
  fun _ hinj => decodeWith_encodeWith hinj

/-- The first bytes of a list, read one by one as the decoder reads them. -/
theorem take_getD_pair {n : Nat} {bytes : List Byte} (hn : n ≤ 2) (henough : n ≤ bytes.length) :
    [bytes.getD 0 0, bytes.getD 1 0].take n = bytes.take n := by
  match n, bytes, hn, henough with
  | 0, _, _, _ => rfl
  | 1, _ :: _, _, _ => rfl
  | 2, _ :: _ :: _, _, _ => rfl

/-- Settles O6: the decoder took the opcode byte of the mnemonic and the operand bytes of its format, and left the
rest. -/
theorem encodeOfDecode : Obligations.EncodeOfDecode := by
  intro opc bytes i rest h
  cases bytes with
  | nil => cases h
  | cons b tail =>
    obtain ⟨k, hk, henough, rfl, rfl⟩ := decodeWith_cons_eq_ok.1 h
    calc b :: tail = opc k :: (tail.take k.operandCount ++ tail.drop k.operandCount) := by
          rw [opcode_of_decodeOpcode hk, List.take_append_drop]
      _ = encodeWith opc (k.instr (tail.getD 0 0) (tail.getD 1 0)) ++ tail.drop k.operandCount := by
          rw [encodeWith, Mnemonic.instr_mnemonic, Mnemonic.instr_operandBytes,
            take_getD_pair k.operandCount_le_two henough, List.cons_append]

/-- The values of the default opcode map, in the order of the table (D1). -/
def legalValues : List Nat := Mnemonic.all.map fun k => (opcodes k).toNat

/-- A byte value is illegal exactly when the table does not list it. -/
theorem decodeOpcode_isNone_iff {n : Nat} (hn : n < 256) :
    (decodeOpcode opcodes (BitVec.ofNat 8 n)).isNone ↔ n ∉ legalValues := by
  have hvalue (k : Mnemonic) : opcodes k = BitVec.ofNat 8 n ↔ (opcodes k).toNat = n := by
    rw [← BitVec.toNat_inj, BitVec.toNat_ofNat, Nat.mod_eq_of_lt hn]
  simp [decodeOpcode_eq_none, legalValues, hvalue, Mnemonic.mem_all]

/-- Of the 256 byte values the legal ones are the table's 13, which are different. -/
theorem length_illegal_values :
    ((List.range 256).filter fun n => (decodeOpcode opcodes (BitVec.ofNat 8 n)).isNone).length = 243 := by
  have hlegal : ((List.range 256).filter fun n => !(decodeOpcode opcodes (BitVec.ofNat 8 n)).isNone).Perm
      legalValues := by
    refine (List.perm_ext_iff_of_nodup (List.nodup_range.filter _) (by decide)).2 fun n => ?_
    have hbound : n ∈ legalValues → n < 256 := (by decide : ∀ m ∈ legalValues, m < 256) n
    rw [List.mem_filter, List.mem_range, Bool.not_eq_true', ← Bool.not_eq_true]
    exact ⟨fun ⟨hn, hsome⟩ => not_not.1 (mt (decodeOpcode_isNone_iff hn).2 hsome),
      fun hmem => ⟨hbound hmem, fun hnone => (decodeOpcode_isNone_iff (hbound hmem)).1 hnone hmem⟩⟩
  have hsplit := List.length_eq_length_filter_add (l := List.range 256)
    fun n => (decodeOpcode opcodes (BitVec.ofNat 8 n)).isNone
  rw [hlegal.length_eq, List.length_range, show legalValues.length = 13 from rfl] at hsplit
  omega

/-- Settles O8: the list is the table's 13 values, and they are 13 different ones of 256. -/
theorem legalOpcodesAreThirteen : Obligations.LegalOpcodesAreThirteen := by
  refine ⟨fun b => ?_, length_illegal_values⟩
  change _ ↔ b ∉ Mnemonic.all.map opcodes
  simp [decodeOpcode_eq_none, Mnemonic.mem_all]

/-- Settles O9: each word is evaluated by the decoder. -/
theorem tableWordsDecode : Obligations.TableWordsDecode := by
  unfold Obligations.TableWordsDecode
  decide

end Sys2Proof
end

section
/-! PROOFS. Which instruction writes which field, once for the committed state and once for the answered one; and the
outcomes of a step. The statements about all steps below are read off from these. -/

namespace Sys2Proof.Machine

variable {opc : OpcodeMap} {s t : State} {i : Instr}

/-! ### The fields a committed state keeps -/

theorem Commits.run_eq (h : Commits s i t) : t.run = if i = .hlt then .halted else s.run := by
  cases h with
  | _ => rfl

theorem Commits.run_eq_of_ne_hlt (h : Commits s i t) (hi : i ≠ .hlt) : t.run = s.run := by
  rw [h.run_eq, if_neg hi]

theorem Instr.mnemonic_eq_hlt : i.mnemonic = .hlt ↔ i = .hlt := by
  cases i with
  | hlt => exact iff_of_true rfl rfl
  | _ => exact iff_of_false nofun nofun

/-- From a running state only HLT commits a halted one (R134). -/
theorem Commits.halted_iff (h : Commits s i t) (hrun : s.run = .running) : t.run = .halted ↔ i.mnemonic = .hlt := by
  rw [h.run_eq, Instr.mnemonic_eq_hlt]
  by_cases hi : i = .hlt
  · simp [hi]
  · simp [hi, hrun]

/-- HLT changes `run` alone (R74). -/
theorem Commits.eq_setRun_of_hlt (h : Commits s i t) (hi : i.mnemonic = .hlt) : t = s.setRun .halted := by
  cases h with
  | hlt => rfl
  | _ => cases hi

theorem Commits.regs_eq (h : Commits s i t) (hi : i.mnemonic ∉ [Mnemonic.ldi, .mul, .add, .pop]) :
    t.regs = s.regs := by
  cases h with
  | ldi | mul | add | pop => simp [Instr.mnemonic] at hi
  | _ => rfl

theorem Commits.fl_eq (h : Commits s i t) (hi : i.mnemonic ≠ .cmp) : t.fl = s.fl := by
  cases h with
  | cmp => exact absurd rfl hi
  | _ => rfl

theorem Commits.out_eq (h : Commits s i t) (hi : i.mnemonic ≠ .prn) : t.out = s.out := by
  cases h with
  | prn => exact absurd rfl hi
  | _ => rfl

theorem Commits.mem_eq (h : Commits s i t) (hi : ¬ (i.mnemonic = .push ∨ i.mnemonic = .call)) : t.mem = s.mem := by
  cases h with
  | push => exact absurd (.inl rfl) hi
  | call => exact absurd (.inr rfl) hi
  | _ => rfl

theorem Commits.sp_eq (h : Commits s i t) (hi : i.mnemonic ∉ [Mnemonic.push, .pop, .call, .ret]) : t.sp = s.sp := by
  cases h with
  | push | pop | call | ret => simp [Instr.mnemonic] at hi
  | _ => rfl

/-! ### The fields a committed state writes -/

/-- LDI, MUL, ADD and POP write the one register their first operand names. -/
theorem Commits.sameRegsBut {reg : Byte} (h : Commits s i t) (hi : reg ∈ i.operandBytes.head?) :
    SameRegsBut reg s t := by
  intro j hj
  have hne {r : RegIdx} (hr : reg.toNat = r.val) : j ≠ r := fun heq => hj (heq ▸ hr.symm)
  cases h with
  | ldi | mul | add | pop =>
    cases hi
    rw [State.setPc_reg]
    exact State.setReg_reg_of_ne s _ (hne ‹_›)
  | _ => rfl

/-- PUSH and CALL write one byte, at the slot their rule computes, and that slot is the new `sp` (R96, R100). -/
theorem Commits.exists_store (h : Commits s i t) (hi : i.mnemonic = .push ∨ i.mnemonic = .call) :
    ∃ nsp v npc, nsp.toNat + 1 = s.sp.toNat ∧ t = ((s.memWrite nsp v).setSp nsp).setPc npc := by
  cases h with
  | push r nsp npc _ hs => exact ⟨nsp, s.reg r, npc, hs, rfl⟩
  | call r ret nsp _ _ hs => exact ⟨nsp, ret, s.reg r, hs, rfl⟩
  | _ => simp [Instr.mnemonic] at hi

/-- POP and RET raise `sp` by one (R97, R101). -/
theorem Commits.sp_of_pop (h : Commits s i t) (hi : i.mnemonic = .pop ∨ i.mnemonic = .ret) :
    t.sp.toNat = s.sp.toNat + 1 := by
  cases h with
  | pop r nsp npc _ hs => exact hs
  | ret nsp hs => exact hs
  | _ => simp [Instr.mnemonic] at hi

/-- The four stack instructions move `sp` by one, the others leave it (R95). -/
theorem Commits.sp_cases (h : Commits s i t) : t.sp = s.sp ∨
    ((i.mnemonic = .push ∨ i.mnemonic = .call) ∧ t.sp.toNat + 1 = s.sp.toNat) ∨
    ((i.mnemonic = .pop ∨ i.mnemonic = .ret) ∧ t.sp.toNat = s.sp.toNat + 1) := by
  by_cases hpush : i.mnemonic = .push ∨ i.mnemonic = .call
  · obtain ⟨nsp, v, npc, hslot, rfl⟩ := h.exists_store hpush
    exact .inr (.inl ⟨hpush, hslot⟩)
  by_cases hpop : i.mnemonic = .pop ∨ i.mnemonic = .ret
  · exact .inr (.inr ⟨hpop, h.sp_of_pop hpop⟩)
  · exact .inl (h.sp_eq (by simp [not_or.1 hpush, not_or.1 hpop]))

/-- A comparison sets exactly one flag (R18, R88). -/
theorem compareFlags_count (a b : Byte) : (compareFlags a b).count = 1 := by
  simp only [Flags.count, compareFlags]
  rcases lt_trichotomy a.toNat b.toNat with h | h | h
  · simp [h, h.ne, h.le]
  · simp [h]
  · simp [h, h.ne', h.le]

theorem Commits.flags_count_of_cmp (h : Commits s i t) (hi : i.mnemonic = .cmp) : t.fl.count = 1 := by
  cases h with
  | cmp a b => exact compareFlags_count (s.reg a) (s.reg b)
  | _ => cases hi

/-- PRN appends the value of the register its operand names (R81). -/
theorem Commits.exists_emit (h : Commits s i t) (hi : i.mnemonic = .prn) :
    ∃ reg r, i = .prn reg ∧ reg.toNat = r.val ∧ t.out = s.out ++ [s.reg r] := by
  cases h with
  | prn r npc hr => exact ⟨_, r, rfl, hr, rfl⟩
  | _ => cases hi

/-- The only write to memory is at a byte address, so the canonical form is kept (R45). -/
theorem Commits.mem_wf (h : Commits s i t) (hwf : Memory.wf s.mem = true) : Memory.wf t.mem = true := by
  by_cases hi : i.mnemonic = .push ∨ i.mnemonic = .call
  · obtain ⟨nsp, v, npc, -, rfl⟩ := h.exists_store hi
    exact State.memWrite_wf hwf nsp v
  · rwa [h.mem_eq hi]

/-! ### The outcomes of a step -/

/-- An instruction that did not raise in a running state committed. -/
theorem commits_of_exec_running (h : exec i s = .next t) (hrun : t.run = .running) : Commits s i t := by
  obtain hcommit | ⟨rfl, -⟩ := exec_cases h
  · exact hcommit
  · exact absurd hrun (State.raise_not_running s _)

/-- Everything a step can do: raise `IllegalInstruction` where the fetch answers no instruction, commit the fetched
instruction, or raise `OutOfBounds` because the fetched instruction commits nothing (R70, R73). -/
theorem stepWith_outcomes (h : stepWith opc s = .next t) :
    fetchWith opc s = none ∧ t = s.raise .illegalInstruction ∨
      ∃ i, fetchWith opc s = some i ∧ (Commits s i t ∨ t = s.raise .outOfBounds ∧ ∀ u, ¬ Commits s i u) := by
  rw [stepWith_running opc (running_of_stepWith h), runOneWith] at h
  cases hfetch : fetchWith opc s with
  | none =>
    rw [hfetch] at h
    cases h
    exact .inl ⟨rfl, rfl⟩
  | some i =>
    rw [hfetch] at h
    exact .inr ⟨i, rfl, exec_cases h⟩

/-- The outcomes of a step where the cause of a raise does not matter. -/
theorem stepWith_raises_or_commits (h : stepWith opc s = .next t) :
    (∃ c, t = s.raise c) ∨ ∃ i, fetchWith opc s = some i ∧ Commits s i t := by
  obtain ⟨-, ht⟩ | ⟨i, hfetch, hcommit | ⟨ht, -⟩⟩ := stepWith_outcomes h
  · exact .inl ⟨_, ht⟩
  · exact .inr ⟨i, hfetch, hcommit⟩
  · exact .inl ⟨_, ht⟩

/-- A step after which the run goes on committed the fetched instruction. -/
theorem exists_commits_of_running (h : stepWith opc s = .next t) (hrun : t.run = .running) :
    ∃ i, fetchWith opc s = some i ∧ Commits s i t := by
  obtain ⟨c, rfl⟩ | hcommits := stepWith_raises_or_commits h
  · exact absurd hrun (State.raise_not_running s c)
  · exact hcommits

/-- The byte at `pc` is the opcode of the fetched instruction (R71). -/
theorem opcodeByte_of_fetchWith (h : fetchWith opc s = some i) : s.opcodeByte = opc i.mnemonic :=
  (opcode_of_decodeOpcode (decodeOpcode_of_fetchWith h)).symm

/-- With an injective map an opcode byte belongs to no other mnemonic (R53). -/
theorem mnemonic_of_opcodeByte (hinj : opc.Injective) (h : fetchWith opc s = some i) {k : Mnemonic} :
    s.opcodeByte = opc k ↔ i.mnemonic = k := by
  rw [opcodeByte_of_fetchWith h]
  exact hinj.eq_iff

end Sys2Proof.Machine
end

section
/-! PROOFS. The legal states (spec/10_state.md sections 4 and 9, spec/20_memory.md section 8): reset is one, a loaded
machine is one, and every step keeps legality, whether it commits or raises. -/

namespace Sys2Proof.Machine

variable {opc : OpcodeMap} {s t : State} {i : Instr}

/-- Settles O1: each field of the reset state by its definition. -/
theorem resetValues : Obligations.ResetValues := by
  refine ⟨fun r => ?regs, rfl, rfl, rfl, State.reset_byteAt, rfl, rfl⟩
  case regs => exact Vector.getElem_replicate r.isLt

/-- In a running state the record and halt clauses of legality say nothing. -/
theorem legal_of_running (hrun : s.run = .running) (hmem : Memory.wf s.mem = true) (hflags : s.fl.count ≤ 1) :
    s.Legal opc where
  mem := hmem
  flags := hflags
  record c p o h := by rw [hrun] at h; cases h
  halt h := by rw [hrun] at h; cases h

/-- Settles O2: reset is running with empty memory and clear flags. -/
theorem resetIsLegal : Obligations.ResetIsLegal :=
  fun _ => legal_of_running rfl State.reset_mem_wf (Nat.zero_le 1)

/-- Raising from a legal state records `pc` and the byte there, so legality asks only for the right cause (R116). -/
theorem State.Legal.raise (hs : s.Legal opc) {c : Cause}
    (hcause : c = .illegalInstruction ↔ ∀ k, opc k ≠ s.opcodeByte) : (s.raise c).Legal opc where
  mem := hs.mem
  flags := hs.flags
  record c' p o h := by
    cases h
    exact ⟨rfl, rfl, hcause⟩
  halt h := by cases h

/-- CMP leaves one flag set, and no other instruction writes the flags (R18). -/
theorem Commits.flags_count_le (h : Commits s i t) (hs : s.fl.count ≤ 1) : t.fl.count ≤ 1 := by
  by_cases hi : i.mnemonic = .cmp
  · exact (h.flags_count_of_cmp hi).le
  · rwa [h.fl_eq hi]

/-- A committed state is running like the one before, or halted at the HLT byte that was fetched. -/
theorem Commits.legal (h : Commits s i t) (hrun : s.run = .running) (hfetch : fetchWith opc s = some i)
    (hs : s.Legal opc) : t.Legal opc := by
  have hmem := h.mem_wf hs.mem
  have hflags := h.flags_count_le hs.flags
  by_cases hi : i = .hlt
  · subst hi
    obtain rfl := h.eq_setRun_of_hlt rfl
    exact ⟨hmem, hflags, fun _ _ _ hfault => (nomatch hfault), fun _ => opcodeByte_of_fetchWith hfetch⟩
  · exact legal_of_running ((h.run_eq_of_ne_hlt hi).trans hrun) hmem hflags

theorem State.Legal.step (hs : s.Legal opc) (h : stepWith opc s = .next t) : t.Legal opc := by
  obtain ⟨hnone, rfl⟩ | ⟨i, hfetch, hcommit | ⟨rfl, -⟩⟩ := stepWith_outcomes h
  · exact hs.raise ⟨fun _ => fetchWith_eq_none.1 hnone, fun _ => rfl⟩
  · exact hcommit.legal (running_of_stepWith h) hfetch hs
  · exact hs.raise ⟨fun h => (nomatch h), fun hall => absurd (opcodeByte_of_fetchWith hfetch).symm (hall _)⟩

/-- Settles O3: the three outcomes of a step, each of which keeps the four clauses. -/
theorem stepKeepsStateLegal : Obligations.StepKeepsStateLegal :=
  fun _ _ _ hs h => hs.step h

/-- Legality is an invariant of runs. -/
theorem State.Legal.of_reaches (hs : s.Legal opc) (h : Reaches opc s t) : t.Legal opc := by
  induction h with
  | refl => exact hs
  | step _ hstep ih => exact ih.step hstep

/-- `load` that succeeds stores the bytes from address 0 on (R131). -/
theorem State.load_eq_ok {bytes : List Byte} : s.load bytes = .ok t ↔
    bytes.length ≤ Config.memSize ∧ t = { s with mem := Memory.store s.mem 0 bytes } := by
  rw [State.load]
  split
  · next h => simp [Nat.not_le_of_lt h]
  · next h => simp [Nat.le_of_not_lt h, eq_comm]

/-- Settles O4: the loaded machine is legal, and a run keeps that. -/
theorem loadedRunsStayLegal : Obligations.LoadedRunsStayLegal := by
  intro opc bytes s t hload hreach
  obtain ⟨-, rfl⟩ := State.load_eq_ok.1 hload
  have hloaded : State.Legal opc { State.reset with mem := Memory.store State.reset.mem 0 bytes } :=
    legal_of_running rfl (Memory.wf_store bytes 0 State.reset_mem_wf) (Nat.zero_le 1)
  exact hloaded.of_reaches hreach

/-- Settles O18: the halt clause of legality where the run ended, which is not `Running`. -/
theorem completedRunStandsAtHlt : Obligations.CompletedRunStandsAtHlt := by
  rintro opc s t hs ⟨⟨hreach, hended⟩, hfinal⟩
  exact ⟨(hs.of_reaches hreach).halt hfinal, fun u hstep => hended (running_of_stepWith hstep)⟩

end Sys2Proof.Machine
end

section
/-! PROOFS. Running with a step budget (spec/40_execution_loop.md section 1): one equation per case of the run, and the
statement that the budgeted run follows the steps and finds the end. -/

namespace Sys2Proof.Machine

variable {opc : OpcodeMap} {s t : State}

theorem runFor_succ_of_step (h : stepWith opc s = .next t) (n : Nat) : runFor opc (n + 1) s = runFor opc n t := by
  rw [runFor, h]

/-- Only `Running` has a step, so elsewhere the budget is not used (R78). -/
theorem runFor_of_not_running (h : s.run ≠ .running) (n : Nat) : runFor opc n s = s := by
  cases n with
  | zero => rfl
  | succ n =>
    rw [runFor]
    split
    · next hstep => exact absurd (running_of_stepWith hstep) h
    · rfl
    · rfl

/-- A run may be extended at its start. -/
theorem Reaches.head {u : State} (h : StepsTo opc s t) (htu : Reaches opc t u) : Reaches opc s u :=
  reaches_iff_reflTransGen.2 (.head h (reaches_iff_reflTransGen.1 htu))

theorem reaches_runFor (opc : OpcodeMap) (n : Nat) (s : State) : Reaches opc s (runFor opc n s) := by
  induction n generalizing s with
  | zero => exact .refl
  | succ n ih =>
    by_cases hrun : s.run = .running
    · obtain ⟨t, hstep⟩ := stepWith_total opc hrun
      rw [runFor_succ_of_step hstep]
      exact (ih t).head hstep
    · rw [runFor_of_not_running hrun]
      exact .refl

/-- A budget of the run's length, or any larger one, arrives at its end. -/
theorem exists_budget_of_endsIn (h : EndsIn opc s t) : ∃ n, ∀ m, n ≤ m → runFor opc m s = t := by
  obtain ⟨hreach, hended⟩ := h
  induction reaches_iff_reflTransGen.1 hreach using Relation.ReflTransGen.head_induction_on with
  | refl => exact ⟨0, fun m _ => runFor_of_not_running hended m⟩
  | head hstep htail ih =>
    obtain ⟨n, hn⟩ := ih (reaches_iff_reflTransGen.2 htail)
    refine ⟨n + 1, fun m hm => ?_⟩
    cases m with
    | zero => cases hm
    | succ m => exact (runFor_succ_of_step hstep m).trans (hn m (Nat.le_of_succ_le_succ hm))

/-- Settles O16: both directions between the run as a relation and the run with a budget. -/
theorem boundedRunFollowsSteps : Obligations.BoundedRunFollowsSteps :=
  fun opc s => ⟨fun n => reaches_runFor opc n s, fun _ => exists_budget_of_endsIn⟩

end Sys2Proof.Machine
end

section
/-! PROOFS. The step at an instruction's bytes (spec/40_execution_loop.md section 1): what the fetch unit reads there,
that the step is then the instruction's meaning, and that a table word placed at `pc` is such bytes. -/

namespace Sys2Proof

/-- Reading a big-endian word one byte further shifts what was read by one byte. -/
theorem foldl_div_pow (bytes : List Byte) (w : Nat) :
    bytes.foldl (fun w b => w * 256 + b.toNat) w / 256 ^ bytes.length = w := by
  induction bytes generalizing w with
  | nil => simp
  | cons b bytes ih =>
    have hb := b.isLt
    rw [List.foldl_cons, List.length_cons, pow_succ, ← Nat.div_div_eq_div_mul, ih]
    omega

/-- The bytes of a word read from bytes are those bytes, whatever stands above them (R51). -/
theorem wordBytes_foldl (bytes : List Byte) (w : Nat) :
    wordBytes bytes.length (bytes.foldl (fun w b => w * 256 + b.toNat) w) = bytes := by
  induction bytes generalizing w with
  | nil => rfl
  | cons b bytes ih =>
    have htop : BitVec.ofNat 8 (w * 256 + b.toNat) = b :=
      BitVec.eq_of_toNat_eq (by rw [BitVec.toNat_ofNat]; have := b.isLt; omega)
    rw [List.foldl_cons, List.length_cons, wordBytes, foldl_div_pow, htop, ih]

/-- An instruction's table word is its encoding, filled up with zero bytes. -/
theorem tableBytes_tableWord (i : Instr) : tableBytes (8 * (encode i).length) (tableWord i) =
    encode i ++ List.replicate (maxLength - (encode i).length) 0 := by
  rw [tableBytes, Nat.mul_div_cancel_left _ (by decide), tableWord, wordBytes_foldl]

theorem decodeTableWord_tableWord (i : Instr) :
    decodeTableWord (8 * (encode i).length) (tableWord i) = some i := by
  rw [decodeTableWord, tableBytes_tableWord, decode, encode, decodeWith_encodeWith opcodes_injective]

/-- No encoding is longer than 3 bytes (R50). -/
theorem encode_length_le (i : Instr) : (encode i).length ≤ maxLength := by
  have hcount := i.mnemonic.operandCount_le_two
  rw [encode, encodeWith_length, Mnemonic.length, maxLength]
  omega

end Sys2Proof

namespace Sys2Proof.Machine

variable {opc : OpcodeMap} {s : State} {i : Instr}

theorem stepWith_of_fetchWith (hrun : s.run = .running) (hfetch : fetchWith opc s = some i) :
    stepWith opc s = exec i s := by
  rw [stepWith_running opc hrun, runOneWith, hfetch]

/-- Where an instruction's encoding lies at `pc`, the fetch unit reads that instruction (R71). -/
theorem fetchWith_of_encoding (hinj : opc.Injective)
    (hbytes : ∀ k, k < (encodeWith opc i).length → s.byteAt (s.pc.toNat + k) = (encodeWith opc i).getD k 0) :
    fetchWith opc s = some i := by
  rw [encodeWith_length, Mnemonic.length] at hbytes
  have hopcode : opc i.mnemonic = s.opcodeByte := (hbytes 0 (by omega)).symm
  exact fetchWith_eq_some.2 ⟨i.mnemonic, (decodeOpcode_eq_some hinj).2 hopcode,
    i.instr_eq_of_operands (fun _ => hbytes 1 (by omega)) fun _ => hbytes 2 (by omega)⟩

/-- Settles O11: the fetch unit reads the instruction, and the step runs what was fetched. -/
theorem stepRunsInstructionAtPc : Obligations.StepRunsInstructionAtPc :=
  fun _ hinj _ _ hrun _ hbytes => stepWith_of_fetchWith hrun (fetchWith_of_encoding hinj hbytes)

/-- A table word placed at `pc` lies there as the instruction's encoding. -/
theorem withFetchWord_byteAt (hwf : Memory.wf s.mem = true) (hroom : s.pc.toNat + 3 ≤ 256) {k : Nat}
    (hk : k < (encode i).length) :
    (s.withFetchWord (8 * (encode i).length) (tableWord i)).byteAt (s.pc.toNat + k) = (encode i).getD k 0 := by
  have hlength := encode_length_le i
  rw [State.withFetchWord, tableBytes_tableWord,
    ← List.getD_append _ (List.replicate (maxLength - (encode i).length) 0) _ _ hk]
  refine Memory.get_store_inside _ _ _ hwf ?_ ?_
  all_goals
    rw [List.length_append, List.length_replicate]
    simp only [maxLength, Config.memSize] at *
    omega

/-- Settles O10: the table word is the encoding, which the decoder reads back and which at `pc` is what a step runs. -/
theorem placedTableWordRuns : Obligations.PlacedTableWordRuns := by
  refine fun i => ⟨decodeTableWord_tableWord i, fun s hwf hroom => ?_⟩
  have hfetch : fetchWith opcodes (s.withFetchWord (8 * (encode i).length) (tableWord i)) = some i :=
    fetchWith_of_encoding opcodes_injective fun _ hk => withFetchWord_byteAt hwf hroom hk
  exact stepWith_of_fetchWith rfl hfetch

/-- Settles O12: the fetch answers HLT, no instruction, or the instruction of the opcode at `pc`. -/
theorem stepFetchesDecodesExecutes : Obligations.StepFetchesDecodesExecutes := by
  intro opc hinj s hrun
  have hdispatch (k : Mnemonic) (hk : opc k = s.opcodeByte) :
      stepWith opc s = exec (k.instr (s.byteAt (s.pc.toNat + 1)) (s.byteAt (s.pc.toNat + 2))) s :=
    stepWith_of_fetchWith hrun (fetchWith_eq_some.2 ⟨k, (decodeOpcode_eq_some hinj).2 hk, rfl⟩)
  exact ⟨fun hhlt => hdispatch .hlt hhlt.symm, stepWith_of_illegal hrun, hdispatch⟩

/-- Settles O17: neither raise halts, and of the commits only HLT's does. -/
theorem haltedExactlyByHlt : Obligations.HaltedExactlyByHlt := by
  intro opc hinj s t hstep
  obtain ⟨hnone, rfl⟩ | ⟨i, hfetch, houtcome⟩ := stepWith_outcomes hstep
  · exact ⟨iff_of_false nofun fun hhlt => fetchWith_eq_none.1 hnone .hlt hhlt.symm, nofun⟩
  · rw [mnemonic_of_opcodeByte hinj hfetch]
    obtain hcommit | ⟨rfl, hno⟩ := houtcome
    · have hhalted := hcommit.halted_iff (running_of_stepWith hstep)
      exact ⟨hhalted, fun h => hcommit.eq_setRun_of_hlt (hhalted.1 h)⟩
    · refine ⟨iff_of_false nofun fun hhlt => ?_, nofun⟩
      obtain rfl := Instr.mnemonic_eq_hlt.1 hhlt
      exact hno _ .hlt

end Sys2Proof.Machine
end

section
/-! PROOFS. When an instruction raises (spec/60_exceptions.md section 1): a commit has every checked value in range, the
ranges give every value a commit needs, and so an instruction commits exactly when none of the six causes holds. -/

namespace Sys2Proof.Machine

variable {opc : OpcodeMap} {s t : State} {i : Instr}

/-! ### What a commit has in range -/

theorem exists_regIdx {b : Byte} (h : b.toNat < 8) : ∃ r : RegIdx, b.toNat = r.val := ⟨⟨b.toNat, h⟩, rfl⟩

theorem exists_byte {n : Nat} (h : n < 256) : ∃ b : Byte, b.toNat = n :=
  ⟨BitVec.ofNat 8 n, by rw [BitVec.toNat_ofNat, Nat.mod_eq_of_lt h]⟩

/-- Every operand byte of an instruction that commits lies inside memory (OB1). -/
theorem Commits.operands_inside (h : Commits s i t) : s.pc.toNat + i.mnemonic.operandCount < 256 := by
  have hpc := s.pc.isLt
  cases h with
  | hlt | ret => exact hpc
  | jmp _ _ hp | jeq _ _ _ hp | jne _ _ _ hp => exact hp
  | prn _ npc _ hn | push _ _ npc _ _ hn | pop _ _ npc _ _ hn | call _ npc _ _ hn =>
    have := npc.isLt
    simp only [Instr.mnemonic, Mnemonic.operandCount]
    omega
  | ldi _ npc _ hn | mul _ _ npc _ _ hn | add _ _ npc _ _ hn | cmp _ _ npc _ _ hn =>
    have := npc.isLt
    simp only [Instr.mnemonic, Mnemonic.operandCount]
    omega

/-- Every register operand of an instruction that commits names a register (OB2). -/
theorem Commits.registers_legal (h : Commits s i t) : ∀ b ∈ registerBytes i, ∃ r : RegIdx, b.toNat = r.val := by
  cases h with
  | hlt | ret => simp [registerBytes]
  | ldi r _ hr | prn r _ hr | push r _ _ hr | pop r _ _ hr | call r _ _ hr | jmp r hr | jeq r _ hr | jne r _ hr =>
    simpa [registerBytes] using ⟨r, hr⟩
  | mul a b _ ha hb | add a b _ ha hb | cmp a b _ ha hb => simpa [registerBytes] using ⟨⟨a, ha⟩, ⟨b, hb⟩⟩

/-- A commit that falls through advances `pc` by the length (R76), so that address is one (OB5). -/
theorem Commits.pc_of_fallsThrough (h : Commits s i t) (hfalls : fallsThrough s.fl i.mnemonic = true) :
    t.pc.toNat = s.pc.toNat + i.mnemonic.length := by
  cases h with
  | hlt | call | ret | jmp => cases hfalls
  | ldi _ _ _ hn | prn _ _ _ hn | mul _ _ _ _ _ hn | add _ _ _ _ _ hn | cmp _ _ _ _ _ hn | push _ _ _ _ _ hn
  | pop _ _ _ _ _ hn => exact hn
  | jeq _ _ _ _ hn =>
    have hclear : s.fl.e = false := by simpa [fallsThrough, Instr.mnemonic] using hfalls
    rw [Flags.equal_eq, hclear, if_neg Bool.false_ne_true] at hn
    exact hn
  | jne _ _ _ _ hn =>
    have hset : s.fl.e = true := hfalls
    rw [Flags.notEqual_eq, hset, Bool.not_true, if_neg Bool.false_ne_true] at hn
    exact hn

/-- A committed CALL pushed its return address, which is one (OB6). -/
theorem Commits.returnAddress_inside (h : Commits s i t) (hi : i.mnemonic = .call) : s.pc.toNat + 2 < 256 := by
  cases h with
  | call _ ret _ _ hret => exact hret ▸ ret.isLt
  | _ => cases hi

theorem Commits.not_outOfRange (h : Commits s i t) : ¬ OutOfRange i s := by
  rintro (hpc | ⟨b, hb, hrange⟩ | ⟨hi, hsp⟩ | ⟨hi, hsp⟩ | ⟨hfalls, hpc⟩ | ⟨hi, hpc⟩)
  case operandAddress => exact absurd h.operands_inside (by omega)
  case registerIndex =>
    obtain ⟨r, hr⟩ := h.registers_legal b hb
    exact absurd r.isLt (by omega)
  case stackSlot =>
    obtain ⟨nsp, -, -, hslot, -⟩ := h.exists_store hi
    omega
  case stackPointer =>
    have hlt := t.sp.isLt
    rw [h.sp_of_pop hi] at hlt
    omega
  case advance =>
    have hlt := t.pc.isLt
    rw [h.pc_of_fallsThrough hfalls] at hlt
    omega
  case returnAddress => exact absurd (h.returnAddress_inside hi) (by omega)

/-! ### The two commits of a conditional jump (R103, R104) -/

theorem Commits.jeq_taken {reg : Byte} {r : RegIdx} (he : s.fl.e = true) (hr : reg.toNat = r.val)
    (hp : s.pc.toNat + 1 < 256) : Commits s (.jeq reg) (s.setPc (s.reg r)) :=
  .jeq r _ hr hp (by rw [Flags.equal_eq, he, if_pos rfl])

theorem Commits.jeq_notTaken {reg npc : Byte} {r : RegIdx} (he : s.fl.e = false) (hr : reg.toNat = r.val)
    (hn : npc.toNat = s.pc.toNat + 2) : Commits s (.jeq reg) (s.setPc npc) := by
  have := npc.isLt
  exact .jeq r _ hr (by omega) (by rwa [Flags.equal_eq, he, if_neg Bool.false_ne_true])

theorem Commits.jne_taken {reg : Byte} {r : RegIdx} (he : s.fl.e = false) (hr : reg.toNat = r.val)
    (hp : s.pc.toNat + 1 < 256) : Commits s (.jne reg) (s.setPc (s.reg r)) :=
  .jne r _ hr hp (by rw [Flags.notEqual_eq, he, Bool.not_false, if_pos rfl])

theorem Commits.jne_notTaken {reg npc : Byte} {r : RegIdx} (he : s.fl.e = true) (hr : reg.toNat = r.val)
    (hn : npc.toNat = s.pc.toNat + 2) : Commits s (.jne reg) (s.setPc npc) := by
  have := npc.isLt
  exact .jne r _ hr (by omega) (by rwa [Flags.notEqual_eq, he, Bool.not_true, if_neg Bool.false_ne_true])

/-! ### What the ranges give a commit -/

section InRange

variable (h : ¬ OutOfRange i s)
include h

theorem operands_of_inRange : s.pc.toNat + i.mnemonic.operandCount < 256 := by
  by_contra hpc
  exact h (.operandAddress (by omega))

theorem register_of_inRange (b : Byte) (hb : b ∈ registerBytes i) : ∃ r : RegIdx, b.toNat = r.val := by
  refine exists_regIdx ?_
  by_contra hrange
  exact h (.registerIndex b hb (by omega))

theorem pushSlot_of_inRange (hi : i.mnemonic = .push ∨ i.mnemonic = .call) :
    ∃ nsp : Byte, nsp.toNat + 1 = s.sp.toNat := by
  have hsp : s.sp.toNat ≠ 0 := fun hsp => h (.stackSlot hi hsp)
  obtain ⟨nsp, hnsp⟩ := exists_byte (n := s.sp.toNat - 1) (by have := s.sp.isLt; omega)
  exact ⟨nsp, by omega⟩

theorem poppedSp_of_inRange (hi : i.mnemonic = .pop ∨ i.mnemonic = .ret) :
    ∃ nsp : Byte, nsp.toNat = s.sp.toNat + 1 := by
  have hsp : s.sp.toNat ≠ 255 := fun hsp => h (.stackPointer hi hsp)
  exact exists_byte (by have := s.sp.isLt; omega)

theorem nextPc_of_inRange (hi : fallsThrough s.fl i.mnemonic = true) :
    ∃ npc : Byte, npc.toNat = s.pc.toNat + i.mnemonic.length := by
  have hoperands := operands_of_inRange h
  have hpc : s.pc.toNat + i.mnemonic.length ≠ 256 := fun hpc => h (.advance hi hpc)
  rw [Mnemonic.length] at hpc ⊢
  exact exists_byte (by omega)

theorem returnAddress_of_inRange (hi : i.mnemonic = .call) : ∃ ret : Byte, ret.toNat = s.pc.toNat + 2 := by
  have hoperands := operands_of_inRange h
  have hpc : s.pc.toNat + 2 ≠ 256 := fun hpc => h (.returnAddress hi hpc)
  rw [hi, Mnemonic.operandCount] at hoperands
  exact exists_byte (by omega)

theorem exists_commits_of_inRange : ∃ t, Commits s i t := by
  have hreg := register_of_inRange h
  have hoperands := operands_of_inRange h
  cases i with
  | hlt => exact ⟨_, .hlt⟩
  | ldi reg =>
    obtain ⟨r, hr⟩ := hreg reg (.head _)
    obtain ⟨npc, hn⟩ := nextPc_of_inRange h rfl
    exact ⟨_, .ldi r npc hr hn⟩
  | prn reg =>
    obtain ⟨r, hr⟩ := hreg reg (.head _)
    obtain ⟨npc, hn⟩ := nextPc_of_inRange h rfl
    exact ⟨_, .prn r npc hr hn⟩
  | mul x y | add x y | cmp x y =>
    obtain ⟨a, ha⟩ := hreg x (.head _)
    obtain ⟨b, hb⟩ := hreg y (.tail _ (.head _))
    obtain ⟨npc, hn⟩ := nextPc_of_inRange h rfl
    exact ⟨_, by constructor <;> assumption⟩
  | push reg =>
    obtain ⟨r, hr⟩ := hreg reg (.head _)
    obtain ⟨nsp, hs⟩ := pushSlot_of_inRange h (.inl rfl)
    obtain ⟨npc, hn⟩ := nextPc_of_inRange h rfl
    exact ⟨_, .push r nsp npc hr hs hn⟩
  | pop reg =>
    obtain ⟨r, hr⟩ := hreg reg (.head _)
    obtain ⟨nsp, hs⟩ := poppedSp_of_inRange h (.inl rfl)
    obtain ⟨npc, hn⟩ := nextPc_of_inRange h rfl
    exact ⟨_, .pop r nsp npc hr hs hn⟩
  | call reg =>
    obtain ⟨r, hr⟩ := hreg reg (.head _)
    obtain ⟨ret, hret⟩ := returnAddress_of_inRange h rfl
    obtain ⟨nsp, hs⟩ := pushSlot_of_inRange h (.inr rfl)
    exact ⟨_, .call r ret nsp hr hret hs⟩
  | ret =>
    obtain ⟨nsp, hs⟩ := poppedSp_of_inRange h (.inr rfl)
    exact ⟨_, .ret nsp hs⟩
  | jmp reg =>
    obtain ⟨r, hr⟩ := hreg reg (.head _)
    exact ⟨_, .jmp r hr hoperands⟩
  | jeq reg =>
    obtain ⟨r, hr⟩ := hreg reg (.head _)
    cases he : s.fl.e with
    | true => exact ⟨_, .jeq_taken he hr hoperands⟩
    | false =>
      obtain ⟨npc, hn⟩ := nextPc_of_inRange h (congrArg not he)
      exact ⟨_, .jeq_notTaken he hr hn⟩
  | jne reg =>
    obtain ⟨r, hr⟩ := hreg reg (.head _)
    cases he : s.fl.e with
    | false => exact ⟨_, .jne_taken he hr hoperands⟩
    | true =>
      obtain ⟨npc, hn⟩ := nextPc_of_inRange h he
      exact ⟨_, .jne_notTaken he hr hn⟩

end InRange

/-! ### The six causes -/

/-- An instruction commits nothing exactly when one of the six causes holds (R112). -/
theorem outOfRange_iff_not_commits : OutOfRange i s ↔ ∀ t, ¬ Commits s i t := by
  refine ⟨fun hout t hcommit => hcommit.not_outOfRange hout, fun hno => ?_⟩
  by_contra hin
  obtain ⟨t, hcommit⟩ := exists_commits_of_inRange hin
  exact hno t hcommit

/-- Where no state is committed the instruction raises `OutOfBounds`. -/
theorem exec_of_not_commits (hno : ∀ t, ¬ Commits s i t) : exec i s = .next (s.raise .outOfBounds) := by
  obtain ⟨t, hexec⟩ := exec_total i s
  obtain hcommit | ⟨rfl, -⟩ := exec_cases hexec
  · exact absurd hcommit (hno t)
  · exact hexec

/-- Settles O32: out of range nothing is committed, and in range the committed state keeps `run` but for HLT. -/
theorem instructionRaisesExactlyOutOfRange : Obligations.InstructionRaisesExactlyOutOfRange := by
  refine fun i s => ⟨fun hout => exec_of_not_commits (outOfRange_iff_not_commits.1 hout), fun hin => ?_⟩
  obtain ⟨t, hcommit⟩ := exists_commits_of_inRange hin
  exact ⟨t, exec_of_commits hcommit, hcommit.run_eq⟩

/-- Settles O33: a commit answers no faulted state, and each of the two raises has its own cause. -/
theorem faultsArePrecise : Obligations.FaultsArePrecise := by
  intro opc s t c p o hstep hfault
  obtain ⟨hnone, rfl⟩ | ⟨i, hfetch, hcommit | ⟨rfl, hno⟩⟩ := stepWith_outcomes hstep
  · cases hfault
    exact ⟨rfl, rfl, rfl, iff_of_false nofun fun ⟨i, hfetch, _⟩ => by rw [hnone] at hfetch; cases hfetch⟩
  · rw [hcommit.run_eq, running_of_stepWith hstep] at hfault
    split at hfault <;> cases hfault
  · cases hfault
    exact ⟨rfl, rfl, rfl, iff_of_true rfl ⟨i, hfetch, outOfRange_iff_not_commits.2 hno⟩⟩

end Sys2Proof.Machine
end

section
/-! PROOFS. The arithmetic of the ALU (spec/42_alu.md section 3) as the library's operations on bit vectors. -/

namespace Sys2Proof.Machine

theorem aluAdd_toNat (a b : Byte) : (aluAdd a b).toNat = (a.toNat + b.toNat) % 256 := by
  rw [aluAdd, BitVec.toNat_ofNat, Nat.mod_mod]

theorem aluMul_toNat (a b : Byte) : (aluMul a b).toNat = (a.toNat * b.toNat) % 256 := by
  rw [aluMul, BitVec.toNat_ofNat, Nat.mod_mod]

theorem aluAdd_eq_add (a b : Byte) : aluAdd a b = a + b :=
  BitVec.eq_of_toNat_eq ((aluAdd_toNat a b).trans (BitVec.toNat_add a b).symm)

theorem aluMul_eq_mul (a b : Byte) : aluMul a b = a * b :=
  BitVec.eq_of_toNat_eq ((aluMul_toNat a b).trans (BitVec.toNat_mul a b).symm)

/-- Settles O46: addition and multiplication of bit vectors are those of the integers modulo 256, signed or not, and
the comparison is the order of the unsigned values. -/
theorem aluArithmeticLaws : Obligations.AluArithmeticLaws := by
  refine fun a b => ⟨aluAdd_toNat a b, aluMul_toNat a b, ?addSigned, ?mulSigned, compareFlags_count a b, ?equal,
    rfl, rfl⟩
  case addSigned => rw [aluAdd_eq_add, BitVec.ofInt_add, BitVec.ofInt_toInt, BitVec.ofInt_toInt]
  case mulSigned => rw [aluMul_eq_mul, BitVec.ofInt_mul, BitVec.ofInt_toInt, BitVec.ofInt_toInt]
  case equal => exact decide_eq_decide.2 BitVec.toNat_inj

end Sys2Proof.Machine
end

section
/-! PROOFS. What each instruction does, and that it completes: its commit, for which the hypotheses give the register
indexes and the addresses. -/

namespace Sys2Proof.Machine

/-- A read after a write at the same byte address. -/
theorem State.memWrite_byteAt_self {s : State} (hwf : Memory.wf s.mem = true) (a v : Byte) :
    (s.memWrite a v).byteAt a.toNat = v := by
  rw [State.memWrite_byteAt_eq hwf, if_pos rfl]

/-- Settles O19: HLT commits in every state. -/
theorem hltHalts : Obligations.HltHalts :=
  fun s => ⟨s.setRun .halted, exec_hlt s, State.setRun_run s _, State.setRun_pc s _⟩

/-- Settles O36: the one state HLT answers differs in `run`. -/
theorem hltFrame : Obligations.HltFrame := by
  intro s t h
  rw [exec_hlt] at h
  cases h
  exact ⟨State.setRun_reg s _, State.setRun_sp s _, State.setRun_pc s _, State.setRun_fl s _, State.setRun_byteAt s _,
    State.setRun_out s _⟩

/-- Settles O20: the immediate goes to the register unaltered. -/
theorem ldiLoadsImmediate : Obligations.LdiLoadsImmediate := by
  intro reg imm8 r s hr hpc
  obtain ⟨npc, hn⟩ := exists_byte (n := s.pc.toNat + 3) (by omega)
  exact ⟨_, exec_of_commits (.ldi r npc hr hn), rfl, State.setReg_reg_self s r imm8, hn⟩

/-- Settles O21: the value is read before `pc` moves, and appended last. -/
theorem prnEmitsRegister : Obligations.PrnEmitsRegister := by
  intro reg r s hr hpc
  obtain ⟨npc, hn⟩ := exists_byte (n := s.pc.toNat + 2) (by omega)
  exact ⟨_, exec_of_commits (.prn r npc hr hn), rfl, State.emit_out s _, hn⟩

/-- Settles O22: the written byte is the ALU's product of the two old values. -/
theorem mulMultipliesModulo256 : Obligations.MulMultipliesModulo256 := by
  intro regA regB a b s ha hb hpc
  obtain ⟨npc, hn⟩ := exists_byte (n := s.pc.toNat + 3) (by omega)
  refine ⟨_, exec_of_commits (.mul a b npc ha hb hn), rfl, ?_, hn⟩
  rw [State.setPc_reg, State.setReg_reg_self, aluMul_toNat]

/-- Settles O23: the written byte is the ALU's sum of the two old values. -/
theorem addAddsModulo256 : Obligations.AddAddsModulo256 := by
  intro regA regB a b s ha hb hpc
  obtain ⟨npc, hn⟩ := exists_byte (n := s.pc.toNat + 3) (by omega)
  refine ⟨_, exec_of_commits (.add a b npc ha hb hn), rfl, ?_, hn⟩
  rw [State.setPc_reg, State.setReg_reg_self, aluAdd_toNat]

/-- Settles O24: the flags written are those of the comparison of the two old values. -/
theorem cmpSetsExactlyOneFlag : Obligations.CmpSetsExactlyOneFlag := by
  intro regA regB a b s ha hb hpc
  obtain ⟨npc, hn⟩ := exists_byte (n := s.pc.toNat + 3) (by omega)
  exact ⟨_, exec_of_commits (.cmp a b npc ha hb hn), rfl, decide_eq_true_iff, decide_eq_true_iff, decide_eq_true_iff,
    compareFlags_count _ _, hn⟩

/-- Settles O25: the slot `sp - 1` is an address, and memory is read where it was written. -/
theorem pushStoresBelowStackPointer : Obligations.PushStoresBelowStackPointer := by
  intro reg r s hwf hr hsp hpc
  obtain ⟨npc, hn⟩ := exists_byte (n := s.pc.toNat + 2) (by omega)
  obtain ⟨nsp, hs⟩ := exists_byte (n := s.sp.toNat - 1) (by have := s.sp.isLt; omega)
  refine ⟨_, exec_of_commits (.push r nsp npc hr (by omega) hn), rfl, ?_, hs, hn⟩
  rw [← hs]
  exact State.memWrite_byteAt_self hwf nsp (s.reg r)

/-- Settles O26: the byte is read at the old `sp`. -/
theorem popLoadsFromStackPointer : Obligations.PopLoadsFromStackPointer := by
  intro reg r s hr hsp hpc
  obtain ⟨npc, hn⟩ := exists_byte (n := s.pc.toNat + 2) (by omega)
  obtain ⟨nsp, hs⟩ := exists_byte (n := s.sp.toNat + 1) (by omega)
  exact ⟨_, exec_of_commits (.pop r nsp npc hr hs hn), rfl, State.setReg_reg_self s r _, hs, hn⟩

/-- Settles O27: like PUSH, with the return address as the byte and the register's value as the next `pc`. -/
theorem callPushesReturnAddressAndJumps : Obligations.CallPushesReturnAddressAndJumps := by
  intro reg r s hwf hr hsp hpc
  obtain ⟨ret, hret⟩ := exists_byte (n := s.pc.toNat + 2) (by omega)
  obtain ⟨nsp, hs⟩ := exists_byte (n := s.sp.toNat - 1) (by have := s.sp.isLt; omega)
  refine ⟨_, exec_of_commits (.call r ret nsp hr hret (by omega)), rfl, ?_, hs, rfl⟩
  rw [← hs, ← hret]
  exact congrArg BitVec.toNat (State.memWrite_byteAt_self hwf nsp ret)

/-- Settles O28: the byte is read at the old `sp`, at any `pc`. -/
theorem retPopsProgramCounter : Obligations.RetPopsProgramCounter := by
  intro s hsp
  obtain ⟨nsp, hs⟩ := exists_byte (n := s.sp.toNat + 1) (by omega)
  exact ⟨_, exec_of_commits (.ret nsp hs), rfl, rfl, hs⟩

/-- Settles O29: only the operand byte has to lie inside memory. -/
theorem jmpJumpsToRegister : Obligations.JmpJumpsToRegister :=
  fun _ r _ hr hpc => ⟨_, exec_of_commits (.jmp r hr (Nat.lt_succ_of_le hpc)), rfl, rfl⟩

/-- Settles O30: the two commits of JEQ. -/
theorem jeqJumpsWhenEqual : Obligations.JeqJumpsWhenEqual := by
  refine fun reg r s hr => ⟨fun he hpc => ?taken, fun he hpc => ?notTaken⟩
  case taken => exact ⟨_, exec_of_commits (.jeq_taken he hr (Nat.lt_succ_of_le hpc)), rfl, rfl⟩
  case notTaken =>
    obtain ⟨npc, hn⟩ := exists_byte (n := s.pc.toNat + 2) (by omega)
    exact ⟨_, exec_of_commits (.jeq_notTaken he hr hn), rfl, hn⟩

/-- Settles O31: the two commits of JNE. -/
theorem jneJumpsWhenNotEqual : Obligations.JneJumpsWhenNotEqual := by
  refine fun reg r s hr => ⟨fun he hpc => ?taken, fun he hpc => ?notTaken⟩
  case taken => exact ⟨_, exec_of_commits (.jne_taken he hr (Nat.lt_succ_of_le hpc)), rfl, rfl⟩
  case notTaken =>
    obtain ⟨npc, hn⟩ := exists_byte (n := s.pc.toNat + 2) (by omega)
    exact ⟨_, exec_of_commits (.jne_notTaken he hr hn), rfl, hn⟩

end Sys2Proof.Machine
end

section
/-! PROOFS. The frames of the instructions: raising keeps every field but `run`, and a commit keeps the fields its
instruction does not write. -/

namespace Sys2Proof.Machine

variable {s t : State} {i : Instr}

theorem sameRegs_of_regs_eq (h : t.regs = s.regs) : SameRegs s t := fun j => by rw [State.reg, h]; rfl

theorem sameMemory_of_mem_eq (h : t.mem = s.mem) : SameMemory s t := fun a => by rw [State.byteAt, h]; rfl

/-- Settles O34: the three write the register of their first operand, and `pc`. -/
theorem registerWritersFrame : Obligations.RegisterWritersFrame := by
  intro i reg x s t hi h
  obtain hcommit | ⟨rfl, -⟩ := exec_cases h
  · obtain rfl | rfl | rfl := hi
    all_goals
      exact ⟨hcommit.sameRegsBut rfl, hcommit.sp_eq (by simp [Instr.mnemonic]), hcommit.fl_eq nofun,
        sameMemory_of_mem_eq (hcommit.mem_eq (by simp [Instr.mnemonic])), hcommit.out_eq nofun,
        .inl (hcommit.run_eq_of_ne_hlt nofun)⟩
  · exact ⟨fun _ _ => rfl, rfl, rfl, fun _ => rfl, rfl, .inr rfl⟩

/-- Settles O35: the five write no register, no `sp` and no memory; flags and `OUT` by the instruction's name. -/
theorem outputCompareJumpFrame : Obligations.OutputCompareJumpFrame := by
  intro i reg x s t hi h
  obtain hcommit | ⟨rfl, -⟩ := exec_cases h
  · obtain ⟨hregs, hsp, hmem, hcmp, hprn, hhlt⟩ :
        i.mnemonic ∉ [Mnemonic.ldi, .mul, .add, .pop] ∧ i.mnemonic ∉ [Mnemonic.push, .pop, .call, .ret] ∧
          ¬ (i.mnemonic = .push ∨ i.mnemonic = .call) ∧ (i ≠ .cmp reg x → i.mnemonic ≠ .cmp) ∧
          (i ≠ .prn reg → i.mnemonic ≠ .prn) ∧ i ≠ .hlt := by
      obtain rfl | rfl | rfl | rfl | rfl := hi <;> simp [Instr.mnemonic]
    exact ⟨sameRegs_of_regs_eq (hcommit.regs_eq hregs), hcommit.sp_eq hsp, sameMemory_of_mem_eq (hcommit.mem_eq hmem),
      fun hne => hcommit.fl_eq (hcmp hne), fun hne => hcommit.out_eq (hprn hne),
      .inl (hcommit.run_eq_of_ne_hlt hhlt)⟩
  · exact ⟨fun _ => rfl, rfl, fun _ => rfl, fun _ => rfl, fun _ => rfl, .inr rfl⟩

/-- Settles O37: the one byte written lies at the slot, which is also the new `sp`. -/
theorem pushCallFrame : Obligations.PushCallFrame := by
  intro i reg s t hi h
  obtain hcommit | ⟨rfl, -⟩ := exec_cases h
  · have hstores : i.mnemonic = .push ∨ i.mnemonic = .call :=
        hi.imp (congrArg Instr.mnemonic) (congrArg Instr.mnemonic)
    obtain ⟨nsp, v, npc, hslot, rfl⟩ := hcommit.exists_store hstores
    have hcomputed := pushSlot_eq_ok.2 hslot
    refine ⟨fun _ => rfl, rfl, rfl, .inl rfl, .inr hcomputed, fun a ha n hn => ?outside, fun hno => ?noSlot⟩
    case outside =>
      have hsame := pushSlot_eq_ok.1 ha
      exact State.memWrite_byteAt_of_ne s v (by omega)
    case noSlot => exact absurd hcomputed (hno nsp)
  · exact ⟨fun _ => rfl, rfl, rfl, .inr rfl, .inl rfl, fun _ _ _ _ => rfl, fun _ _ => rfl⟩

/-- Settles O38: POP writes the register of its operand, RET none, and both `sp` and `pc`. -/
theorem popRetFrame : Obligations.PopRetFrame := by
  refine ⟨fun reg s t h => ?pop, fun s t h => ?ret⟩
  case pop =>
    obtain hcommit | ⟨rfl, -⟩ := exec_cases h
    · exact ⟨hcommit.sameRegsBut rfl, hcommit.fl_eq nofun,
        sameMemory_of_mem_eq (hcommit.mem_eq (by simp [Instr.mnemonic])), hcommit.out_eq nofun,
        .inl (hcommit.run_eq_of_ne_hlt nofun)⟩
    · exact ⟨fun _ _ => rfl, rfl, fun _ => rfl, rfl, .inr rfl⟩
  case ret =>
    obtain hcommit | ⟨rfl, -⟩ := exec_cases h
    · exact ⟨sameRegs_of_regs_eq (hcommit.regs_eq (by simp [Instr.mnemonic])), hcommit.fl_eq nofun,
        sameMemory_of_mem_eq (hcommit.mem_eq (by simp [Instr.mnemonic])), hcommit.out_eq nofun,
        .inl (hcommit.run_eq_of_ne_hlt nofun)⟩
    · exact ⟨fun _ => rfl, rfl, fun _ => rfl, rfl, .inr rfl⟩

end Sys2Proof.Machine
end

section
/-! PROOFS. Rules of every step: who writes the flags, `sp` and memory (spec/10_state.md sections 2 and 4,
spec/20_memory.md section 8). -/

namespace Sys2Proof.Machine

variable {opc : OpcodeMap} {s t : State} {i : Instr}

/-- Settles O39: a raise keeps the flags, and so does a commit of anything but CMP. -/
theorem onlyCmpWritesFlags : Obligations.OnlyCmpWritesFlags := by
  refine fun opc hinj s t hstep => ⟨fun hne => ?kept, fun hcmp hrun => ?counted⟩
  case kept =>
    obtain ⟨c, rfl⟩ | ⟨i, hfetch, hcommit⟩ := stepWith_raises_or_commits hstep
    · rfl
    · exact hcommit.fl_eq fun hi => hne ((mnemonic_of_opcodeByte hinj hfetch).2 hi)
  case counted =>
    obtain ⟨i, hfetch, hcommit⟩ := exists_commits_of_running hstep hrun
    exact hcommit.flags_count_of_cmp ((mnemonic_of_opcodeByte hinj hfetch).1 hcmp)

/-- Of two mnemonics, the fetched one gives the opcode byte; for this direction the map need not be injective. -/
theorem opcodeByte_of_mnemonic {k k' : Mnemonic} (hfetch : fetchWith opc s = some i)
    (hi : i.mnemonic = k ∨ i.mnemonic = k') : s.opcodeByte = opc k ∨ s.opcodeByte = opc k' := by
  rw [opcodeByte_of_fetchWith hfetch]
  exact hi.imp (congrArg opc) (congrArg opc)

/-- Settles O41: a raise keeps `sp`, and a commit moves it by its instruction. -/
theorem stackPointerMovesByOne : Obligations.StackPointerMovesByOne := by
  intro opc s t hstep
  obtain ⟨c, rfl⟩ | ⟨i, hfetch, hcommit⟩ := stepWith_raises_or_commits hstep
  · exact .inl rfl
  · obtain hkept | ⟨hi, hdown⟩ | ⟨hi, hup⟩ := hcommit.sp_cases
    · exact .inl hkept
    · exact .inr (.inl ⟨opcodeByte_of_mnemonic hfetch hi, hdown⟩)
    · exact .inr (.inr ⟨opcodeByte_of_mnemonic hfetch hi, hup⟩)

/-- A committed instruction that changes a byte is PUSH or CALL, and the byte is the one below `sp` (R43). -/
theorem Commits.store_of_byteAt_ne (h : Commits s i t) {a : Nat} (ha : t.byteAt a ≠ s.byteAt a) :
    (i.mnemonic = .push ∨ i.mnemonic = .call) ∧ a + 1 = s.sp.toNat := by
  by_cases hi : i.mnemonic = .push ∨ i.mnemonic = .call
  · obtain ⟨nsp, v, npc, hslot, rfl⟩ := h.exists_store hi
    refine ⟨hi, ?_⟩
    by_contra hne
    exact ha (State.memWrite_byteAt_of_ne s v (by omega))
  · exact absurd (by rw [State.byteAt, h.mem_eq hi]; rfl) ha

/-- A begun run refuses `load`, of any bytes (D11). -/
theorem Session.load_of_begun {h : Session} (hbegun : h.begun = true) (bytes : List Byte) :
    h.load bytes = .refused .loadAfterRunBegan := by
  rw [Session.load, if_pos hbegun]

/-- Settles O43: reset, `load` and the step, each by what it stores. -/
theorem memoryWrittenByPushAndCallAlone : Obligations.MemoryWrittenByPushAndCallAlone := by
  refine ⟨State.reset_byteAt, fun s t bytes hload a ha => ?load, fun h bytes hbegun h' hload => ?begun,
    fun opc s t a hstep hne => ?step⟩
  case load =>
    obtain ⟨-, rfl⟩ := State.load_eq_ok.1 hload
    exact Memory.get_store_of_outside bytes s.mem 0 a (.inr (by omega))
  case begun =>
    rw [Session.load_of_begun hbegun] at hload
    cases hload
  case step =>
    obtain ⟨c, rfl⟩ | ⟨i, hfetch, hcommit⟩ := stepWith_raises_or_commits hstep
    · exact absurd rfl hne
    · obtain ⟨hi, haddr⟩ := hcommit.store_of_byteAt_ne hne
      exact ⟨opcodeByte_of_mnemonic hfetch hi, haddr⟩

end Sys2Proof.Machine
end

section
/-! PROOFS. What a step reads of memory and of `OUT` (spec/20_memory.md section 2, spec/10_state.md section 7): with
another memory that agrees on the cells the step reads, and any other `OUT`, it does the same. -/

namespace Sys2Proof.Machine

variable {opc : OpcodeMap} {s t : State} {i : Instr} {m : Memory} {o : List Byte}

/-- The same state with another memory and another `OUT`. -/
def State.withMemOut (s : State) (m : Memory) (o : List Byte) : State := { s with mem := m, out := o }

/-- What an instruction does to memory: nothing, or one write of a byte that it does not take from memory's other
cells. -/
inductive MemEffect : (Memory → Memory) → Prop where
  | none : MemEffect id
  | store (a v : Byte) : MemEffect (Memory.set · a.toNat v)

/-- What an instruction does to `OUT`: nothing, or one byte appended. -/
inductive OutEffect : (List Byte → List Byte) → Prop where
  | none : OutEffect id
  | emit (v : Byte) : OutEffect (· ++ [v])

/-- An effect leaves a cell of each of two memories, or makes the cells equal. -/
theorem MemEffect.left_or_same {f : Memory → Memory} (h : MemEffect f) {m m' : Memory} (hm : Memory.wf m = true)
    (hm' : Memory.wf m' = true) (a : Nat) :
    (f m').get a = m'.get a ∧ (f m).get a = m.get a ∨ (f m').get a = (f m).get a := by
  cases h with
  | none => exact .inl ⟨rfl, rfl⟩
  | store b v =>
    rw [Memory.get_set hm, Memory.get_set hm']
    by_cases ha : a = b.toNat
    · exact .inr (by rw [if_pos ha, if_pos ha])
    · exact .inl ⟨if_neg ha, if_neg ha⟩

theorem OutEffect.exists_append {g : List Byte → List Byte} (h : OutEffect g) : ∃ new, ∀ o, g o = o ++ new := by
  cases h with
  | none => exact ⟨[], fun o => (List.append_nil o).symm⟩
  | emit v => exact ⟨[v], fun _ => rfl⟩

/-- The same commit applies with another memory that agrees at the top of the stack where the instruction pops, and
does the same to both memories and to both outputs. -/
theorem Commits.withMemOut (h : Commits s i t)
    (htop : i.mnemonic = .pop ∨ i.mnemonic = .ret → Memory.get m s.sp.toNat = s.byteAt s.sp.toNat) :
    ∃ f g, MemEffect f ∧ OutEffect g ∧ t.mem = f s.mem ∧ t.out = g s.out ∧
      Commits (s.withMemOut m o) i (t.withMemOut (f m) (g o)) := by
  have hpopped : i.mnemonic = .pop ∨ i.mnemonic = .ret →
      (s.withMemOut m o).byteAt (s.withMemOut m o).sp.toNat = s.byteAt s.sp.toNat := htop
  cases h with
  | hlt => exact ⟨_, _, .none, .none, rfl, rfl, .hlt⟩
  | ldi r npc hr hn => exact ⟨_, _, .none, .none, rfl, rfl, .ldi r npc hr hn⟩
  | prn r npc hr hn => exact ⟨_, _, .none, .emit (s.reg r), rfl, rfl, .prn r npc hr hn⟩
  | mul a b npc ha hb hn => exact ⟨_, _, .none, .none, rfl, rfl, .mul a b npc ha hb hn⟩
  | add a b npc ha hb hn => exact ⟨_, _, .none, .none, rfl, rfl, .add a b npc ha hb hn⟩
  | cmp a b npc ha hb hn => exact ⟨_, _, .none, .none, rfl, rfl, .cmp a b npc ha hb hn⟩
  | push r nsp npc hr hs hn => exact ⟨_, _, .store nsp (s.reg r), .none, rfl, rfl, .push r nsp npc hr hs hn⟩
  | pop r nsp npc hr hs hn =>
    have hcommit := Commits.pop (s := s.withMemOut m o) r nsp npc hr hs hn
    rw [hpopped (.inl rfl)] at hcommit
    exact ⟨_, _, .none, .none, rfl, rfl, hcommit⟩
  | call r ret nsp hr hret hs => exact ⟨_, _, .store nsp ret, .none, rfl, rfl, .call r ret nsp hr hret hs⟩
  | ret nsp hs =>
    have hcommit := Commits.ret (s := s.withMemOut m o) nsp hs
    rw [hpopped (.inr rfl)] at hcommit
    exact ⟨_, _, .none, .none, rfl, rfl, hcommit⟩
  | jmp r hr hp => exact ⟨_, _, .none, .none, rfl, rfl, .jmp r hr hp⟩
  | jeq r npc hr hp hn => exact ⟨_, _, .none, .none, rfl, rfl, .jeq r npc hr hp hn⟩
  | jne r npc hr hp hn => exact ⟨_, _, .none, .none, rfl, rfl, .jne r npc hr hp hn⟩

/-- The record of a raise holds the byte at `pc`, on which the memories agree. -/
theorem State.withMemOut_raise (hop : Memory.get m s.pc.toNat = s.opcodeByte) (c : Cause) :
    (s.withMemOut m o).raise c = (s.raise c).withMemOut m o := by
  have hrecord : (s.withMemOut m o).opcodeByte = s.opcodeByte := hop
  rw [State.raise, hrecord]
  rfl

/-- An instruction commits in both states or, since the two may change places, raises in both. -/
theorem exec_withMemOut (hop : Memory.get m s.pc.toNat = s.opcodeByte)
    (htop : i.mnemonic = .pop ∨ i.mnemonic = .ret → Memory.get m s.sp.toNat = s.byteAt s.sp.toNat)
    (h : exec i s = .next t) :
    ∃ f g, MemEffect f ∧ OutEffect g ∧ t.mem = f s.mem ∧ t.out = g s.out ∧
      exec i (s.withMemOut m o) = .next (t.withMemOut (f m) (g o)) := by
  obtain hcommit | ⟨rfl, hno⟩ := exec_cases h
  · obtain ⟨f, g, hf, hg, hmem, hout, hcommit'⟩ := hcommit.withMemOut (o := o) htop
    exact ⟨f, g, hf, hg, hmem, hout, exec_of_commits hcommit'⟩
  · refine ⟨_, _, .none, .none, rfl, rfl, ?_⟩
    have hno' : ∀ u, ¬ Commits (s.withMemOut m o) i u := fun u hcommit' => by
      obtain ⟨f, g, -, -, -, -, hcommit⟩ :=
        hcommit'.withMemOut (m := s.mem) (o := s.out) fun hi => (htop hi).symm
      exact hno _ hcommit
    rw [exec_of_not_commits hno', State.withMemOut_raise hop]
    rfl

/-- The fetch reads the byte at `pc` and, after it, the operand bytes of that opcode (R71). -/
theorem fetchWith_withMemOut (hop : Memory.get m s.pc.toNat = s.opcodeByte)
    (hcells : ∀ k a, opc k = s.opcodeByte → readsCell s k a → Memory.get m a = s.byteAt a) :
    fetchWith opc (s.withMemOut m o) = fetchWith opc s := by
  have hopcode : (s.withMemOut m o).opcodeByte = s.opcodeByte := hop
  cases hk : decodeOpcode opc s.opcodeByte with
  | none => rw [fetchWith_eq_none.2 (decodeOpcode_eq_none.1 hk), fetchWith_eq_none, hopcode, ← decodeOpcode_eq_none, hk]
  | some k =>
    have hoperand (n : Nat) (hn : 1 ≤ n) (hnk : n ≤ k.operandCount) :
        (s.withMemOut m o).byteAt (s.pc.toNat + n) = s.byteAt (s.pc.toNat + n) :=
      hcells k _ (opcode_of_decodeOpcode hk) (.inl ⟨by omega, by omega⟩)
    rw [fetchWith_eq_some.2 ⟨k, hk, rfl⟩]
    exact fetchWith_eq_some.2 ⟨k, hopcode ▸ hk, Mnemonic.instr_congr (hoperand 1 le_rfl) (hoperand 2 one_le_two)⟩

/-- With another memory that agrees on the cells a step reads and with any other `OUT`, the step is the same, and does
the same to memory and `OUT`. -/
theorem stepWith_withMemOut (hop : Memory.get m s.pc.toNat = s.opcodeByte)
    (hcells : ∀ k a, opc k = s.opcodeByte → readsCell s k a → Memory.get m a = s.byteAt a)
    (h : stepWith opc s = .next t) :
    ∃ f g, MemEffect f ∧ OutEffect g ∧ t.mem = f s.mem ∧ t.out = g s.out ∧
      stepWith opc (s.withMemOut m o) = .next (t.withMemOut (f m) (g o)) := by
  have hrun := running_of_stepWith h
  have hrun' : (s.withMemOut m o).run = .running := hrun
  have hfetch' := fetchWith_withMemOut (o := o) hop hcells
  cases hfetch : fetchWith opc s with
  | none =>
    have hillegal := fetchWith_eq_none.1 hfetch
    rw [stepWith_of_illegal hrun hillegal] at h
    cases h
    refine ⟨_, _, .none, .none, rfl, rfl, ?_⟩
    rw [stepWith_of_illegal hrun' (fetchWith_eq_none.1 (hfetch'.trans hfetch)), State.withMemOut_raise hop]
    rfl
  | some i =>
    rw [stepWith_of_fetchWith hrun hfetch] at h
    rw [stepWith_of_fetchWith hrun' (hfetch'.trans hfetch)]
    exact exec_withMemOut hop (fun hi => hcells _ _ (opcodeByte_of_fetchWith hfetch).symm (.inr ⟨hi, rfl⟩)) h

/-- Settles O44: the step with the other memory, and its one effect on the cells of both. -/
theorem stepReadsOnlyItsCells : Obligations.StepReadsOnlyItsCells := by
  intro opc _ s t m hwf hwf' hop hcells hstep
  obtain ⟨f, g, hf, -, hmem, hout, hstep'⟩ := stepWith_withMemOut (o := s.out) hop hcells hstep
  refine ⟨_, hstep', rfl, rfl, rfl, rfl, rfl, hout.symm, fun a => ?_⟩
  rw [State.byteAt, State.byteAt, hmem]
  exact hf.left_or_same hwf hwf' a

/-- A step after which the run does not go on appends nothing: PRN keeps the run going (R81). -/
theorem stepWith_out_of_not_running (h : stepWith opc s = .next t) (hended : t.run ≠ .running) : t.out = s.out := by
  obtain ⟨c, rfl⟩ | ⟨i, -, hcommit⟩ := stepWith_raises_or_commits h
  · rfl
  · refine hcommit.out_eq fun hi => hended ?_
    rw [hcommit.run_eq_of_ne_hlt fun hhlt => (nomatch hi.symm.trans (congrArg Instr.mnemonic hhlt))]
    exact running_of_stepWith h

/-- Settles O42: PRN's commit appends its register's value, no other commit and no raise appends, and the step with
another `OUT` appends the same. -/
theorem outputGrowsByPrnAlone : Obligations.OutputGrowsByPrnAlone := by
  refine fun opc hinj s t hstep => ⟨fun hprn hrun => ?prn, fun hne => ?other, stepWith_out_of_not_running hstep,
    fun o => ?unread⟩
  case prn =>
    obtain ⟨i, hfetch, hcommit⟩ := exists_commits_of_running hstep hrun
    obtain ⟨reg, r, rfl, hr, hout⟩ := hcommit.exists_emit ((mnemonic_of_opcodeByte hinj hfetch).1 hprn)
    rw [operandA_of_fetchWith hfetch rfl] at hr
    exact ⟨r, hr, hout⟩
  case other =>
    obtain ⟨c, rfl⟩ | ⟨i, hfetch, hcommit⟩ := stepWith_raises_or_commits hstep
    · rfl
    · exact hcommit.out_eq fun hi => hne ((mnemonic_of_opcodeByte hinj hfetch).2 hi)
  case unread =>
    obtain ⟨f, g, -, hg, hmem, hout, hstep'⟩ :=
      stepWith_withMemOut (m := s.mem) (o := o) rfl (fun _ _ _ _ => rfl) hstep
    obtain ⟨new, hnew⟩ := hg.exists_append
    rw [← hmem, hnew] at hstep'
    exact ⟨new, hout.trans (hnew s.out), hstep'⟩

end Sys2Proof.Machine
end

section
/-! PROOFS. The stack (spec/43_stack.md, spec/44_control_transfer.md): what a list of pushes leaves in memory, what a
list of pops reads from it, and CALL with RET around work that keeps the slot. -/

namespace Sys2Proof.Machine

variable {s t : State} {i : Instr}

/-! ### Lists of instructions -/

/-- A list of instructions that executes from a running state commits its first one, and the rest executes from
there. -/
theorem exists_commits_of_execAll_cons {is : List Instr} (hrun : s.run = .running)
    (h : execAll (i :: is) s = some t) : ∃ u, Commits s i u ∧ u.run = .running ∧ execAll is u = some t := by
  obtain ⟨u, hexec⟩ := exec_total i s
  simp only [execAll, hexec, Option.ite_none_right_eq_some] at h
  obtain ⟨hkept, hrest⟩ := h
  exact ⟨u, commits_of_exec_running hexec (hkept.trans hrun), hkept.trans hrun, hrest⟩

/-- A concatenation that executes passes through the state its first part ends in. -/
theorem exists_execAll_of_append {is js : List Instr} (hrun : s.run = .running) (h : execAll (is ++ js) s = some t) :
    ∃ u, execAll is s = some u ∧ u.run = .running ∧ execAll js u = some t := by
  induction is generalizing s with
  | nil => exact ⟨s, rfl, hrun, h⟩
  | cons i is ih =>
    obtain ⟨v, hcommit, hrunv, hrest⟩ := exists_commits_of_execAll_cons hrun h
    obtain ⟨u, hfirst, hlast⟩ := ih hrunv hrest
    refine ⟨u, ?_, hlast⟩
    rw [execAll, exec_of_commits hcommit]
    exact (if_pos (hrunv.trans hrun.symm)).trans hfirst

/-! ### Pushes -/

/-- After a list of pushes: `sp` is lower by their number, the registers and every byte from the old `sp` on are as
before, and the `k`-th pushed value lies `k + 1` below the old `sp`. -/
structure Pushed (rs : List Byte) (s t : State) : Prop where
  sp : t.sp.toNat + rs.length = s.sp.toNat
  above : ∀ a, s.sp.toNat ≤ a → t.byteAt a = s.byteAt a
  stacked : ∀ k a (r : RegIdx), k < rs.length → a + k + 1 = s.sp.toNat → (rs.getD k 0).toNat = r.val →
    t.byteAt a = s.reg r

theorem Pushed.nil (s : State) : Pushed [] s s := ⟨rfl, fun _ _ => rfl, fun _ _ _ hk => absurd hk (Nat.not_lt_zero _)⟩

/-- One more push before the others: its value lies on top of what was there, and the others stack below it. -/
theorem Pushed.cons {reg : Byte} {rs : List Byte} {u : State} (hwf : Memory.wf s.mem = true)
    (hcommit : Commits s (.push reg) u) (h : Pushed rs u t) : Pushed (reg :: rs) s t := by
  cases hcommit with
  | push r nsp npc hr hs hn =>
    obtain ⟨hsp, habove, hstacked⟩ := h
    simp only [State.setPc_sp, State.setSp_sp, State.setPc_byteAt, State.setSp_byteAt] at hsp habove hstacked
    refine ⟨by rw [List.length_cons]; omega, fun a ha => ?above, fun k a q hk ha hq => ?stacked⟩
    case above => rw [habove a (by omega), State.memWrite_byteAt_of_ne s _ (by omega)]
    case stacked =>
      cases k with
      | zero =>
        obtain rfl : r = q := Fin.ext (hr.symm.trans hq)
        obtain rfl : a = nsp.toNat := by omega
        rw [habove _ le_rfl, State.memWrite_byteAt_self hwf]
      | succ k => exact hstacked k a q (Nat.lt_of_succ_lt_succ hk) (by omega) hq

theorem pushed_of_execAll {rs : List Byte} (hwf : Memory.wf s.mem = true) (hrun : s.run = .running)
    (h : execAll (rs.map .push) s = some t) : Pushed rs s t := by
  induction rs generalizing s with
  | nil =>
    cases h
    exact .nil _
  | cons reg rs ih =>
    obtain ⟨u, hcommit, hrunu, hrest⟩ := exists_commits_of_execAll_cons hrun h
    exact .cons hwf hcommit (ih (hcommit.mem_wf hwf) hrunu hrest)

/-! ### Pops -/

/-- After a list of pops: `sp` is higher by their number, a register that is no destination is as before, and with
distinct destinations the `k`-th holds the byte that lay `k` above the old `sp`. -/
structure Popped (qs : List Byte) (s t : State) : Prop where
  sp : t.sp.toNat = s.sp.toNat + qs.length
  kept : ∀ j : RegIdx, (∀ b ∈ qs, j.val ≠ b.toNat) → t.reg j = s.reg j
  taken : qs.Nodup → ∀ k (q : RegIdx), k < qs.length → (qs.getD k 0).toNat = q.val →
    t.reg q = s.byteAt (s.sp.toNat + k)

theorem Popped.nil (s : State) : Popped [] s s := ⟨rfl, fun _ _ => rfl, fun _ _ _ hk => absurd hk (Nat.not_lt_zero _)⟩

/-- One more pop before the others: it takes the byte at `sp`, and the others keep it, going on one higher in the same
memory. -/
theorem Popped.cons {reg : Byte} {qs : List Byte} {u : State} (hcommit : Commits s (.pop reg) u) (h : Popped qs u t) :
    Popped (reg :: qs) s t := by
  cases hcommit with
  | pop r nsp npc hr hs hn =>
    obtain ⟨hsp, hkept, htaken⟩ := h
    simp only [State.setPc_sp, State.setSp_sp, State.setPc_reg, State.setSp_reg, State.setPc_byteAt,
      State.setSp_byteAt, State.setReg_byteAt] at hsp hkept htaken
    refine ⟨by rw [List.length_cons]; omega, fun j hj => ?kept, fun hnodup k q hk hq => ?taken⟩
    case kept =>
      rw [hkept j fun b hb => hj b (.tail _ hb)]
      exact State.setReg_reg_of_ne s _ fun hjr => hj reg (.head _) (by rw [hjr, hr])
    case taken =>
      obtain ⟨hnotin, hnodup⟩ := List.nodup_cons.1 hnodup
      cases k with
      | zero =>
        obtain rfl : r = q := Fin.ext (hr.symm.trans hq)
        have hdistinct : ∀ b ∈ qs, r.val ≠ b.toNat := fun b hb heq =>
          hnotin (BitVec.eq_of_toNat_eq (hr.trans heq) ▸ hb)
        rw [hkept r hdistinct, State.setReg_reg_self, Nat.add_zero]
      | succ k =>
        rw [htaken hnodup k q (Nat.lt_of_succ_lt_succ hk) hq, hs]
        exact congrArg s.byteAt (by omega)

theorem popped_of_execAll {qs : List Byte} (hrun : s.run = .running) (h : execAll (qs.map .pop) s = some t) :
    Popped qs s t := by
  induction qs generalizing s with
  | nil =>
    cases h
    exact .nil _
  | cons reg qs ih =>
    obtain ⟨u, hcommit, hrunu, hrest⟩ := exists_commits_of_execAll_cons hrun h
    exact .cons hcommit (ih hrunu hrest)

/-- Settles O47: the pops read what the pushes stacked, from the other end. -/
theorem stackIsBalancedAndLifo : Obligations.StackIsBalancedAndLifo := by
  intro rs qs s t hwf hrun hlength h
  obtain ⟨u, hpushes, hrunu, hpops⟩ := exists_execAll_of_append hrun h
  have hpushed := pushed_of_execAll hwf hrun hpushes
  have hpopped := popped_of_execAll hrunu hpops
  have hdepth := hpushed.sp
  refine ⟨BitVec.eq_of_toNat_eq ?balance, fun hnodup k r q hk hq hr => ?lifo⟩
  case balance =>
    rw [hpopped.sp]
    omega
  case lifo =>
    rw [hpopped.taken hnodup k q hk hq]
    exact hpushed.stacked (rs.length - 1 - k) _ r (by omega) (by omega) hr

/-! ### Subroutines and the next fetch -/

/-- Settles O48: CALL left its return address at the slot, which RET takes into `pc`. -/
theorem callThenRetResumesAfterCall : Obligations.CallThenRetResumesAfterCall := by
  intro reg s t u hwf hrun hcall hrunt hsp hslot
  cases commits_of_exec_running hcall hrunt with
  | call r ret nsp hr hret hs =>
    change u.sp = nsp at hsp
    change u.byteAt nsp.toNat = (s.memWrite nsp ret).byteAt nsp.toNat at hslot
    have hback : s.sp.toNat = u.sp.toNat + 1 := by rw [hsp, hs]
    refine ⟨_, exec_of_commits (.ret s.sp hback), rfl, ?_, rfl⟩
    rw [State.setSp_pc, State.setPc_pc, hsp, hslot, State.memWrite_byteAt_self hwf, hret]

/-- What a committed PUSH or CALL stored is at its `sp`, and every other byte is as before. -/
theorem Commits.byteAt_of_store {reg v : Byte} {r : RegIdx} (hwf : Memory.wf s.mem = true) (hr : reg.toNat = r.val)
    (hi : i = .push reg ∧ v = s.reg r ∨ i = .call reg ∧ v.toNat = s.pc.toNat + 2) (h : Commits s i t) (a : Nat) :
    t.byteAt a = if a = t.sp.toNat then v else s.byteAt a := by
  obtain ⟨rfl, rfl⟩ | ⟨rfl, hv⟩ := hi
  · cases h with
    | push r' nsp npc hr' hs hn =>
      obtain rfl : r = r' := Fin.ext (hr.symm.trans hr')
      exact State.memWrite_byteAt_eq hwf nsp (s.reg r) a
  · cases h with
    | call r' ret nsp hr' hret hs =>
      obtain rfl : v = ret := BitVec.eq_of_toNat_eq (hv.trans hret.symm)
      exact State.memWrite_byteAt_eq hwf nsp v a

/-- Settles O49: every byte the next fetch reads is a byte of the memory just written. -/
theorem storeSeenByNextFetch : Obligations.StoreSeenByNextFetch := by
  intro i reg r v s t hwf hrun hr hi hexec hrunt
  have hbyte := (commits_of_exec_running hexec hrunt).byteAt_of_store hwf hr hi
  refine ⟨fun heq => ?atSlot, fun hne => ?elsewhere, fun k _ => hbyte _⟩
  case atSlot => rw [State.opcodeByte, hbyte, if_pos (congrArg BitVec.toNat heq)]
  case elsewhere => rw [State.opcodeByte, hbyte, if_neg fun heq => hne (BitVec.eq_of_toNat_eq heq)]

end Sys2Proof.Machine
end

section
/-! PROOFS. The host's operations (spec/70_reset_and_hazards.md section 2). -/

namespace Sys2Proof.Machine

theorem State.load_of_tooLong {bytes : List Byte} (s : State) (h : 256 < bytes.length) :
    s.load bytes = .error .programTooLong := if_pos h

/-- Settles O50: the load stores the bytes from address 0 on, where they fit. -/
theorem loadCopiesOrFails : Obligations.LoadCopiesOrFails := by
  refine fun s bytes hwf => ⟨s.load_of_tooLong, fun hfits => ?_⟩
  refine ⟨_, State.load_eq_ok.2 ⟨hfits, rfl⟩, rfl, Memory.wf_store bytes 0 hwf, fun k hk => ?loaded,
    fun k hk => ?beyond⟩
  case loaded =>
    have hbyte := Memory.get_store_inside bytes 0 k hwf (by rwa [Nat.zero_add]) hk
    rwa [Nat.zero_add] at hbyte
  case beyond => exact Memory.get_store_of_outside bytes s.mem 0 k (.inr (by rwa [Nat.zero_add]))

/-- Settles O51: each operation by whether the run has begun. -/
theorem hostOperationOrder : Obligations.HostOperationOrder := by
  refine fun h => ⟨Session.load_of_begun, fun hbegun => ?runTwice, fun hbegun opc n => ?noStep, fun hbegun => ?run,
    fun hbegun bytes hlong => ?tooLong⟩
  case runTwice => rw [Session.start, if_pos hbegun]
  case noStep => rw [Session.advance, hbegun, if_neg Bool.false_ne_true]
  case run =>
    refine ⟨{ core := h.core.setRun .running, begun := true }, ?_, rfl, rfl, rfl, rfl, fun opc n => ?_⟩
    · rw [Session.start, hbegun, if_neg Bool.false_ne_true]
    · rw [Session.advance, if_pos rfl]
  case tooLong => rw [Session.load, hbegun, if_neg Bool.false_ne_true, State.load_of_tooLong _ hlong]

/-- Settles O52: the zero byte at address 0 is none of the 13 opcodes. -/
theorem runWithoutLoadFaults : Obligations.RunWithoutLoadFaults := by
  have hillegal : ∀ k, opcodes k ≠ State.reset.opcodeByte := by
    intro k
    cases k <;> decide
  exact ⟨_, stepWith_of_illegal rfl hillegal, rfl, rfl⟩

end Sys2Proof.Machine
end
